-- ==== Sys2Proof/Word.lean ====
section
/-! DEFINITION. The machine's word, byte and register-index types (spec/00_scope.md section 4,
rule R5: XLEN = 32, BYTE = 8, NREGS = 32). -/

namespace Sys2Proof

/-- A 32-bit word: a register's contents, an address, the pc, an instruction word (R5, R11, R15). -/
abbrev Word := BitVec 32

/-- The addressable unit of memory, 8 bits (R30). -/
abbrev Byte := BitVec 8

/-- A register index: "a 5-bit instruction field", so every index exists (R11). -/
abbrev RegIdx := BitVec 5

/-- One line of console text, without its terminator (R140). -/
abbrev Line := List Byte

end Sys2Proof
end

