-- ==== Sys2Proof/Syntax.lean ====
section
/-! DEFINITION. The instructions: one constructor per row of spec/opcode_table.json, with every field
the decoder extracts (spec/30_encoding.md rules R51, R54, R55), the ignored ones too, so that no bit
of a word is lost (log 22). -/

namespace Sys2Proof

/-- The 15 instructions. Format R carries rs, rt, rd, shamt in the word's order, format I rs, rt, imm
(kept raw, R58), format J the 26-bit target. -/
inductive Instr where
  /-- ADD (R91). -/
  | add (rs rt rd : RegIdx) (shamt : BitVec 5)
  /-- SUB (R92). -/
  | sub (rs rt rd : RegIdx) (shamt : BitVec 5)
  /-- AND (R93). -/
  | and (rs rt rd : RegIdx) (shamt : BitVec 5)
  /-- OR (R94). -/
  | or (rs rt rd : RegIdx) (shamt : BitVec 5)
  /-- SLT, SET-LESS-THAN (R95). -/
  | slt (rs rt rd : RegIdx) (shamt : BitVec 5)
  /-- TRAP (R130); all four fields are ignored (R57(b)). -/
  | trap (rs rt rd : RegIdx) (shamt : BitVec 5)
  /-- ADDIU, ADD-IMMEDIATE-UNSIGNED (R100). -/
  | addiu (rs rt : RegIdx) (imm : BitVec 16)
  /-- ANDI, AND-IMMEDIATE (R101). -/
  | andi (rs rt : RegIdx) (imm : BitVec 16)
  /-- ORI, OR-IMMEDIATE (R102). -/
  | ori (rs rt : RegIdx) (imm : BitVec 16)
  /-- LUI, LOAD-UPPER-IMMEDIATE (R103); rs is ignored (R57(c)). -/
  | lui (rs rt : RegIdx) (imm : BitVec 16)
  /-- LW, LOAD-WORD (R111). -/
  | lw (rs rt : RegIdx) (imm : BitVec 16)
  /-- SW, STORE-WORD (R112). -/
  | sw (rs rt : RegIdx) (imm : BitVec 16)
  /-- BEQ, BRANCH-EQUAL (R121). -/
  | beq (rs rt : RegIdx) (imm : BitVec 16)
  /-- BNE, BRANCH-NOT-EQUAL (R122). -/
  | bne (rs rt : RegIdx) (imm : BitVec 16)
  /-- J, JUMP (R123). -/
  | j (target : BitVec 26)
  deriving DecidableEq, Repr

/-- The closed set of 15 operation tags (R56). -/
inductive Operation where
  | add | sub | and | or | slt | trap
  | addiu | andi | ori | lui | lw | sw | beq | bne | j
  deriving DecidableEq, Repr

/-- The decoder's record as the spec lists it (R56), fields in the order of its vectors. -/
structure InstrRecord where
  operation : Operation
  rs : RegIdx
  rt : RegIdx
  rd : RegIdx
  shiftAmount : BitVec 5
  immediate : BitVec 16
  jumpTarget : BitVec 26
  deriving DecidableEq, Repr

end Sys2Proof
end

