-- ==== Sys2Proof/Decode.lean ====
section
/-! DEFINITION. The decoder, total on every 32-bit word, rejecting by name, and after it the encoder
(spec/30_encoding.md rules R50 to R57, R65, R68), the decoder's record (R56) and the opcode map as rows
of match and mask (R57, spec/opcode_table.json). -/

namespace Sys2Proof

/-- The four bytes of a word in memory order, joined big-endian: the byte at the lowest address is bits
31:24 (R33, R36, R50). -/
def joinBytes (b0 b1 b2 b3 : Byte) : Word := b0 ++ b1 ++ b2 ++ b3

/-- Byte `k` (0 to 3) of a word in memory order: byte 0 is bits 31:24, byte 3 is bits 7:0 (R34, R36). -/
def byteOfWord (v : Word) (k : Nat) : Byte := v.extractLsb' (8 * (3 - k)) 8

/-- Bits 31:26 (R51). -/
def fieldOpcode (w : Word) : BitVec 6 := w.extractLsb' 26 6
/-- Bits 25:21 (R51). -/
def fieldRs (w : Word) : RegIdx := w.extractLsb' 21 5
/-- Bits 20:16 (R51). -/
def fieldRt (w : Word) : RegIdx := w.extractLsb' 16 5
/-- Bits 15:11 (R51). -/
def fieldRd (w : Word) : RegIdx := w.extractLsb' 11 5
/-- Bits 10:6 (R51). -/
def fieldShamt (w : Word) : BitVec 5 := w.extractLsb' 6 5
/-- Bits 5:0 (R51). -/
def fieldFunct (w : Word) : BitVec 6 := w.extractLsb' 0 6
/-- Bits 15:0 (R51). -/
def fieldImm (w : Word) : BitVec 16 := w.extractLsb' 0 16
/-- Bits 25:0 (R51). -/
def fieldTarget (w : Word) : BitVec 26 := w.extractLsb' 0 26

/-- The two errors of the decoder (R53), with the 6-bit code each names (R54, R55). -/
inductive DecodeError where
  | unknownOpcode (code : BitVec 6)
  | unknownFunction (code : BitVec 6)
  deriving DecidableEq, Repr

/-- The function table of the register-register class (R54): function code, then the instruction. -/
def decodeFunct (funct : BitVec 6) (rs rt rd : RegIdx) (shamt : BitVec 5) : Except DecodeError Instr :=
  if funct = 32#6 then .ok (.add rs rt rd shamt)
  else if funct = 34#6 then .ok (.sub rs rt rd shamt)
  else if funct = 36#6 then .ok (.and rs rt rd shamt)
  else if funct = 37#6 then .ok (.or rs rt rd shamt)
  else if funct = 42#6 then .ok (.slt rs rt rd shamt)
  else if funct = 12#6 then .ok (.trap rs rt rd shamt)
  else .error (.unknownFunction funct)

/-- The opcode table of the immediate/memory/branch/jump class (R55). -/
def decodeOpcode (opcode : BitVec 6) (rs rt : RegIdx) (imm : BitVec 16) (target : BitVec 26) :
    Except DecodeError Instr :=
  if opcode = 9#6 then .ok (.addiu rs rt imm)
  else if opcode = 12#6 then .ok (.andi rs rt imm)
  else if opcode = 13#6 then .ok (.ori rs rt imm)
  else if opcode = 15#6 then .ok (.lui rs rt imm)
  else if opcode = 35#6 then .ok (.lw rs rt imm)
  else if opcode = 43#6 then .ok (.sw rs rt imm)
  else if opcode = 4#6 then .ok (.beq rs rt imm)
  else if opcode = 5#6 then .ok (.bne rs rt imm)
  else if opcode = 2#6 then .ok (.j target)
  else .error (.unknownOpcode opcode)

/-- `decode` (R53): "If opcode == 0" the register-register class (R54), else the other (R55). It looks at
no bit outside the opcode and, when the opcode is 0, the function (R57). -/
def decode (w : Word) : Except DecodeError Instr :=
  if fieldOpcode w = 0#6 then
    decodeFunct (fieldFunct w) (fieldRs w) (fieldRt w) (fieldRd w) (fieldShamt w)
  else decodeOpcode (fieldOpcode w) (fieldRs w) (fieldRt w) (fieldImm w) (fieldTarget w)

/-- The decoder on the four bytes of an instruction as memory holds them, lowest address first (R50). -/
def decodeBytes (b0 b1 b2 b3 : Byte) : Except DecodeError Instr := decode (joinBytes b0 b1 b2 b3)

/-- The instruction the decoder reads from `nbits` bits of value `w`, the bits above them zero. -/
def decodeTableWord (nbits w : Nat) : Option Instr :=
  let word : Word := BitVec.ofNat 32 (w % 2 ^ nbits)
  match decodeBytes (byteOfWord word 0) (byteOfWord word 1) (byteOfWord word 2) (byteOfWord word 3) with
  | .ok i => some i
  | .error _ => none

/-- `enc_R` of R68, the opcode being 0. -/
def encR (funct : BitVec 6) (rs rt rd : RegIdx) (shamt : BitVec 5) : Word :=
  0#6 ++ rs ++ rt ++ rd ++ shamt ++ funct

/-- `enc_I` of R68. -/
def encI (opcode : BitVec 6) (rs rt : RegIdx) (imm : BitVec 16) : Word := opcode ++ rs ++ rt ++ imm

/-- `enc_J` of R68, the opcode being 2. -/
def encJ (target : BitVec 26) : Word := 2#6 ++ target

/-- The word of an instruction (R68, with the numbers of R54 and R55). -/
def encode (i : Instr) : Word :=
  match i with
  | .add rs rt rd shamt => encR 32#6 rs rt rd shamt
  | .sub rs rt rd shamt => encR 34#6 rs rt rd shamt
  | .and rs rt rd shamt => encR 36#6 rs rt rd shamt
  | .or rs rt rd shamt => encR 37#6 rs rt rd shamt
  | .slt rs rt rd shamt => encR 42#6 rs rt rd shamt
  | .trap rs rt rd shamt => encR 12#6 rs rt rd shamt
  | .addiu rs rt imm => encI 9#6 rs rt imm
  | .andi rs rt imm => encI 12#6 rs rt imm
  | .ori rs rt imm => encI 13#6 rs rt imm
  | .lui rs rt imm => encI 15#6 rs rt imm
  | .lw rs rt imm => encI 35#6 rs rt imm
  | .sw rs rt imm => encI 43#6 rs rt imm
  | .beq rs rt imm => encI 4#6 rs rt imm
  | .bne rs rt imm => encI 5#6 rs rt imm
  | .j target => encJ target

/-- The operation tag of an instruction (R56). -/
def Instr.operation (i : Instr) : Operation :=
  match i with
  | .add _ _ _ _ => .add
  | .sub _ _ _ _ => .sub
  | .and _ _ _ _ => .and
  | .or _ _ _ _ => .or
  | .slt _ _ _ _ => .slt
  | .trap _ _ _ _ => .trap
  | .addiu _ _ _ => .addiu
  | .andi _ _ _ => .andi
  | .ori _ _ _ => .ori
  | .lui _ _ _ => .lui
  | .lw _ _ _ => .lw
  | .sw _ _ _ => .sw
  | .beq _ _ _ => .beq
  | .bne _ _ _ => .bne
  | .j _ => .j

/-- The record of a format R instruction: immediate and jump_target are not extracted and are 0 (R56,
D6, log 22). -/
def recordR (op : Operation) (rs rt rd : RegIdx) (shamt : BitVec 5) : InstrRecord :=
  { operation := op, rs := rs, rt := rt, rd := rd, shiftAmount := shamt, immediate := 0#16, jumpTarget := 0#26 }

/-- The record of the other class: jump_target is bits 25:0 of the same word; rd and shift_amount are
not extracted and are 0 (R56, D6, log 22). -/
def recordI (op : Operation) (rs rt : RegIdx) (imm : BitVec 16) : InstrRecord :=
  { operation := op, rs := rs, rt := rt, rd := 0#5, shiftAmount := 0#5, immediate := imm,
    jumpTarget := rs ++ rt ++ imm }

/-- The decoder's record of an instruction (R54 to R56). For J, rs, rt and immediate are the bits of the
same word that lie in the target. -/
def Instr.toRecord (i : Instr) : InstrRecord :=
  match i with
  | .add rs rt rd shamt => recordR .add rs rt rd shamt
  | .sub rs rt rd shamt => recordR .sub rs rt rd shamt
  | .and rs rt rd shamt => recordR .and rs rt rd shamt
  | .or rs rt rd shamt => recordR .or rs rt rd shamt
  | .slt rs rt rd shamt => recordR .slt rs rt rd shamt
  | .trap rs rt rd shamt => recordR .trap rs rt rd shamt
  | .addiu rs rt imm => recordI .addiu rs rt imm
  | .andi rs rt imm => recordI .andi rs rt imm
  | .ori rs rt imm => recordI .ori rs rt imm
  | .lui rs rt imm => recordI .lui rs rt imm
  | .lw rs rt imm => recordI .lw rs rt imm
  | .sw rs rt imm => recordI .sw rs rt imm
  | .beq rs rt imm => recordI .beq rs rt imm
  | .bne rs rt imm => recordI .bne rs rt imm
  | .j target => recordI .j (target.extractLsb' 21 5) (target.extractLsb' 16 5) (target.extractLsb' 0 16)

/-- One row of the opcode map: a word is the operation's exactly when its bits under `mask` are `match`. -/
structure OpcodeRow where
  operation : Operation
  pattern : Word
  mask : Word
  deriving DecidableEq, Repr

/-- The opcode map, row by row as spec/opcode_table.json gives match and mask (R57). -/
def opcodeRows : List OpcodeRow :=
  [⟨.add, 0x00000020#32, 0xFC00003F#32⟩,
   ⟨.sub, 0x00000022#32, 0xFC00003F#32⟩,
   ⟨.and, 0x00000024#32, 0xFC00003F#32⟩,
   ⟨.or, 0x00000025#32, 0xFC00003F#32⟩,
   ⟨.slt, 0x0000002A#32, 0xFC00003F#32⟩,
   ⟨.trap, 0x0000000C#32, 0xFC00003F#32⟩,
   ⟨.addiu, 0x24000000#32, 0xFC000000#32⟩,
   ⟨.andi, 0x30000000#32, 0xFC000000#32⟩,
   ⟨.ori, 0x34000000#32, 0xFC000000#32⟩,
   ⟨.lui, 0x3C000000#32, 0xFC000000#32⟩,
   ⟨.lw, 0x8C000000#32, 0xFC000000#32⟩,
   ⟨.sw, 0xAC000000#32, 0xFC000000#32⟩,
   ⟨.beq, 0x10000000#32, 0xFC000000#32⟩,
   ⟨.bne, 0x14000000#32, 0xFC000000#32⟩,
   ⟨.j, 0x08000000#32, 0xFC000000#32⟩]

/-- The word is one of the row's. -/
def OpcodeRow.matchesWord (r : OpcodeRow) (w : Word) : Bool := w &&& r.mask == r.pattern

end Sys2Proof
end

