-- ==== Sys2Proof/Config.lean ====
section
/-! DEFINITION. The parameters of spec/00_scope.md rule R5 that are fixed for one machine: those the
spec decides or suggests a default for are definitions, those it leaves open are opaque constants
with no body, so that no proof can see a value. -/

namespace Sys2Proof

/-- What the environment is told about success (R179). -/
inductive ExitStatus where
  | success
  | nonSuccess
  deriving DecidableEq, Repr, Inhabited

/-- `TEXT_BASE` as `State.reset` takes it. PRESUMED: the spec leaves it open and suggests this value from
general knowledge (D1, log 1). `State.resetWith` takes any value. Unsafe. -/
def Config.textBase : Word := 0x00400000#32

/-- `DATA_BASE` as a loader may take it. PRESUMED: the spec leaves it open and suggests this value from
general knowledge (D2, log 2). No step reads it. Unsafe. -/
def Config.dataBase : Word := 0x10010000#32

/-- `TRAP_CODE_REG`: the register the handler reads the trap code from and trap 5 writes its result
to. DESIGN CHOICE of the spec (D3, rule R132, log 3). Unsafe. -/
def Config.trapCodeReg : RegIdx := 2#5

/-- `TRAP_ARG_REG`: the argument register of traps 1 and 4. DESIGN CHOICE of the spec (D4, rule R132,
log 3). Unsafe. -/
def Config.trapArgReg : RegIdx := 4#5

/-- `ParseInt` on the lines the contract of R143 does not settle: some 32-bit value or failure, a
function of the line only (R143(d), U11, log 9). Safe: nothing constrains it. -/
opaque Config.parseOther : Line → Option Word

/-- `MSG_FELL_OFF_END`: the bytes of the message on the sentinel (R144, D11, log 11). Safe. -/
opaque Config.msgFellOffEnd : List Byte

/-- The bytes `MSG_EXIT` is made from (R144, D11, log 11). Safe. -/
opaque Config.msgExitBytes : List Byte

/-- `MSG_EXIT`: "The two must differ" (R144), so a zero byte is put in front where the free bytes
happen to be the other message. Every pair of different messages is still possible. -/
def Config.msgExit : List Byte :=
  if Config.msgExitBytes = Config.msgFellOffEnd then 0#8 :: Config.msgExitBytes
  else Config.msgExitBytes

/-- `EXIT_STATUS_FELL_OFF_END`: whether falling off the end counts as success (R179, D23, log 19).
Safe. -/
opaque Config.exitStatusFellOffEnd : ExitStatus

end Sys2Proof
end

