-- ==== Sys2Proof/Machine/State.lean ====
section
/-! DEFINITION. The machine's state as plain data (spec/10_state.md rules R10 to R24), the reasons it can
stop, and the state after reset. -/

namespace Sys2Proof.Machine

/-- Memory: the bytes that are not zero, by address, addresses strictly rising (R20, R31; the form is
`Memory.wf` of Machine/Ops.lean). -/
abbrev Memory := List Host.Cell

/-- What an address that is not listed reads as: "addresses not yet written read as zero" (R31). -/
def unlistedByte : Byte := 0#8

/-- The two normal ends (R18, R80). -/
inductive HaltReason where
  | fellOffEnd
  | exitTrap
  deriving DecidableEq, Repr

/-- The four kinds of fatal error (R18, R150). `unimplementedOperation` is the spec's name for a case that
cannot occur (R87, R153): nothing in this model raises it (log 23). -/
inductive FatalKind where
  | unknownOpcode
  | unknownFunction
  | unimplementedOperation
  | unknownTrap
  deriving DecidableEq, Repr

/-- The run state (R18, R80). In `fatal`, `code` is the offending opcode or function (R83) or the signed
trap code (R137), `addr` the address of the offending word. -/
inductive RunState where
  | running
  | halted (reason : HaltReason)
  | fatal (kind : FatalKind) (code : Int) (addr : Word)
  deriving DecidableEq, Repr

/-- One report on the error channel, as a structured value (R141, D12, log 12). `inputParseError none` is
the report for end of input. -/
inductive ErrorReport where
  | inputParseError (got : Option Line)
  | fatal (kind : FatalKind) (code : Int) (addr : Word)
  deriving DecidableEq, Repr

/-- The architectural state (R10), the run state (R18) and the console streams the model carries beside
it (R21). -/
structure State where
  /-- `x[0]` to `x[31]` (R11). -/
  regs : Vector Word 32
  /-- The program counter (R15). -/
  pc : Word
  /-- The one address space (R20). -/
  mem : Memory
  /-- RUNNING, HALTED or FATAL (R18). -/
  runState : RunState
  /-- Console output so far (R21, R139). -/
  out : List Byte
  /-- Console input lines not yet consumed; after the last one comes end of input (R21, R140). -/
  input : List Line
  /-- The error-reporting channel so far, write-only (R21, R141). -/
  errors : List ErrorReport
  deriving DecidableEq, Repr

/-- Why the machine is stuck. A fatal error of R150 is no fault here: it is a next state whose run state
is `fatal` (log 6). -/
inductive Fault where
  /-- Raised by TRAP with code 4 when no byte of memory is zero: "the step never completes" (R176, D20,
  log 15). The spec calls this a hang and no fault: the fault is the model's own stand-in for it. Safe: the
  model stops where the hardware hangs. -/
  | unterminatedString
  deriving DecidableEq, Repr

/-- Why an instruction has no meaning here. -/
inductive Refusal where
  /-- Raised only by an arm of `exec` whose instruction has no meaning yet; no arm raises it now. Safe. -/
  | notModelled (mnemonic : String)
  deriving DecidableEq, Repr

/-- The state after reset for given `TEXT_BASE`, `IMAGE` and `INPUT` (R24, R170): all registers zero, pc
at the text base, RUNNING, nothing printed, nothing reported. -/
def State.resetWith (textBase : Word) (image : Memory) (input : List Line) : State :=
  { regs := Vector.replicate 32 0#32
    pc := textBase
    mem := image
    runState := .running
    out := []
    input := input
    errors := [] }

/-- The state after reset with nothing loaded and no input: `TEXT_BASE` is `Config.textBase` (PRESUMED,
log 1), `IMAGE` and `INPUT` are empty (DESIGN CHOICE, logs 10 and 14). Unsafe for claims about absolute
addresses. -/
def State.reset : State := State.resetWith Config.textBase [] []

end Sys2Proof.Machine
end

