-- ==== Sys2Proof/Machine/Ops.lean ====
section
/-! DEFINITION. The named operations over memory, registers, pc, run state and error channel that every
meaning is written with: spec/20_memory.md rules R30 to R37, spec/10_state.md rules R12 and R15,
spec/40_step_cycle.md rules R80 to R85, spec/60_exceptions.md rule R159, spec/70_reset_and_hazards.md rules
R171, R172 and R179. -/

namespace Sys2Proof.Machine

/-- The canonical form of a memory: addresses strictly rising and inside the 2^32 bytes (R30), no listed
byte equal to what an unlisted address reads as (R31). -/
abbrev Memory.wf (m : Memory) : Prop :=
  m.Pairwise (fun c d => c.1 < d.1) ∧ ∀ c ∈ m, c.1 < 2 ^ 32 ∧ c.2 ≠ unlistedByte

/-- `MemRead(a, 1)` (R35): the byte at `a`, zero where nothing is listed (R31). -/
def Memory.readByte (m : Memory) (a : Word) : Byte :=
  match m with
  | [] => unlistedByte
  | c :: rest => if c.1 = a.toNat then c.2 else Memory.readByte rest a

/-- Put a cell at its place in the rising order. -/
def Memory.insertCell (m : Memory) (k : Nat) (b : Byte) : Memory :=
  match m with
  | [] => [(k, b)]
  | c :: rest => if k < c.1 then (k, b) :: c :: rest else c :: Memory.insertCell rest k b

/-- `M[a] <- b` (R34): the old entry goes, and a new one comes unless `b` is what an unlisted address
reads as, so the canonical form stays. -/
def Memory.writeByte (m : Memory) (a : Word) (b : Byte) : Memory :=
  let others := m.filter (fun c => c.1 != a.toNat)
  if b = unlistedByte then others else Memory.insertCell others a.toNat b

/-- The address of byte `k` of a word or string at `a`: the sum is modulo 2^32 (R32, D5, log 4). -/
def byteAddr (a : Word) (k : Nat) : Word := a + BitVec.ofNat 32 k

/-- `MemRead(a, 4)`, `fetch_word` (R33): four bytes, big-endian, at any address (R37). -/
def Memory.readWord (m : Memory) (a : Word) : Word :=
  joinBytes (m.readByte (byteAddr a 0)) (m.readByte (byteAddr a 1))
    (m.readByte (byteAddr a 2)) (m.readByte (byteAddr a 3))

/-- `MemWrite(a, 4, v)`, `store_word` (R34): four bytes, big-endian, at any address (R37). -/
def Memory.writeWord (m : Memory) (a : Word) (v : Word) : Memory :=
  (((m.writeByte (byteAddr a 0) (byteOfWord v 0)).writeByte (byteAddr a 1) (byteOfWord v 1)).writeByte
    (byteAddr a 2) (byteOfWord v 2)).writeByte (byteAddr a 3) (byteOfWord v 3)

/-- The bytes of the string at `a`, reading at most `n` bytes; none when no byte among them is zero. -/
def Memory.readCStringWithin (m : Memory) (n : Nat) (a : Word) : Option (List Byte) :=
  match n with
  | 0 => none
  | n + 1 =>
    if m.readByte a = 0#8 then some []
    else (Memory.readCStringWithin m n (byteAddr a 1)).map (m.readByte a :: ·)

/-- `MemReadCString(a)`, `read_c_string` (R35): the bytes before the first zero byte at or after `a`.
The 2^32 bytes from `a` on are all the bytes there are (R30, R32), so none means that no byte of memory
is zero and the read never ends (R176, log 15). -/
def Memory.readCString (m : Memory) (a : Word) : Option (List Byte) :=
  Memory.readCStringWithin m (2 ^ 32) a

/-- Words stored one after another from `a` on, 4 bytes each (R171, R172). -/
def loadWords (m : Memory) (a : Word) (words : List Word) : Memory :=
  match words with
  | [] => m
  | w :: rest => loadWords (m.writeWord a w) (byteAddr a 4) rest

/-- `Load(TEXT_BASE, W, DATA_BASE, D)` (D15): the image the loader leaves, text words first, then data
words as handed to the core (R171, R172, log 14). -/
def loadImage (textBase : Word) (text : List Word) (dataBase : Word) (data : List Word) : Memory :=
  loadWords (loadWords [] textBase text) dataBase data

/-- `x[i]` (R11). -/
def readReg (s : State) (i : RegIdx) : Word := s.regs[i.toNat]'i.isLt

/-- `x[i] <- v`. A write to `x[0]` lands and is undone by the epilogue (R12, R85, log 13). -/
def writeReg (i : RegIdx) (v : Word) (s : State) : State :=
  { s with regs := s.regs.set i.toNat v i.isLt }

/-- The step epilogue `x[0] <- 0` (R85). -/
def forceZero (s : State) : State := writeReg 0#5 0#32 s

/-- `pc + 4`, modulo 2^32 (R15, D19, log 5). -/
def nextPc (s : State) : Word := s.pc + 4#32

/-- The instruction is done: pc takes its new value and the epilogue runs (R84, R85). -/
def completeAt (target : Word) (s : State) : State := forceZero { s with pc := target }

/-- The default completion: `pc <- pc + 4; x[0] <- 0` (R84, R85; for traps 1, 4 and 5 R138). -/
def complete (s : State) : State := completeAt (nextPc s) s

/-- Write one result register, then complete: the shape of R90 and R104. -/
def writeBack (i : RegIdx) (v : Word) (s : State) : State := complete (writeReg i v s)

/-- Store one word, then complete (R112). -/
def storeBack (a : Word) (v : Word) (s : State) : State := complete { s with mem := s.mem.writeWord a v }

/-- `ConsoleOut(b)` (R139). -/
def consoleOut (bytes : List Byte) (s : State) : State := { s with out := s.out ++ bytes }

/-- One report on the error channel (R141). -/
def reportError (r : ErrorReport) (s : State) : State := { s with errors := s.errors ++ [r] }

/-- `ConsoleReadLine()`'s effect on the stream: the next line is gone; at end of input nothing changes
(R140). -/
def dropLine (s : State) : State := { s with input := s.input.tail }

/-- `ConsoleReadLine()`'s answer: the next line, or none for EndOfInput (R140). -/
def nextLine (s : State) : Option Line := s.input.head?

/-- The termination message of each normal end (R144, log 11). -/
def haltMessage (reason : HaltReason) : List Byte :=
  match reason with
  | .fellOffEnd => Config.msgFellOffEnd
  | .exitTrap => Config.msgExit

/-- `halt(reason)` (R80): the run state, the message, "change nothing else". -/
def halt (reason : HaltReason) (s : State) : State :=
  consoleOut (haltMessage reason) { s with runState := .halted reason }

/-- `raise Fatal(kind, code, addr)` with `addr` = pc (R159): the run state and the report on the error
channel, nothing else. This is the machine's only exception: no register saves anything, there is no
handler address and no return (R159, R161); registers, pc, memory and console output stay (D18, log 6). -/
def raiseFatal (kind : FatalKind) (code : Int) (s : State) : State :=
  reportError (.fatal kind code s.pc) { s with runState := .fatal kind code s.pc }

/-- The kind of fatal error a decode error is (R83). -/
def decodeErrorKind (e : DecodeError) : FatalKind :=
  match e with
  | .unknownOpcode _ => .unknownOpcode
  | .unknownFunction _ => .unknownFunction

/-- The code a decode error names: the 6-bit value, unsigned (R54, R55). -/
def decodeErrorCode (e : DecodeError) : Int :=
  match e with
  | .unknownOpcode code => code.toNat
  | .unknownFunction code => code.toNat

/-- The fetch of step 1: `MemRead(pc, 4)` (R81). -/
def fetchWord (s : State) : Word := s.mem.readWord s.pc

/-- The state with a word stored at the pc and the machine running, so that the next step runs it. -/
def placeWord (w : Word) (s : State) : State :=
  { s with mem := s.mem.writeWord s.pc w, runState := .running }

/-- What the environment receives when a run has ended (R179). -/
inductive TerminationSignal where
  | exitSuccess
  | fellOffEnd (status : ExitStatus)
  | fatalError (kind : FatalKind) (code : Int) (addr : Word)
  deriving DecidableEq, Repr

/-- The termination signal of a run state, none while RUNNING (R179, log 19). -/
def terminationSignal (r : RunState) : Option TerminationSignal :=
  match r with
  | .running => none
  | .halted .exitTrap => some .exitSuccess
  | .halted .fellOffEnd => some (.fellOffEnd Config.exitStatusFellOffEnd)
  | .fatal kind code addr => some (.fatalError kind code addr)

/-- The exit status the environment sees with a signal (R179): exit is success, a fatal error is not. -/
def TerminationSignal.exitStatus (t : TerminationSignal) : ExitStatus :=
  match t with
  | .exitSuccess => .success
  | .fellOffEnd status => status
  | .fatalError _ _ _ => .nonSuccess

end Sys2Proof.Machine
end

