-- ==== Sys2Proof/Machine/Operands.lean ====
section
/-! DEFINITION. Every operand form (spec/30_encoding.md rules R58 to R60, spec/43_load_store.md rule R110,
spec/44_branch_jump.md rules R120 and R123). -/

namespace Sys2Proof.Machine

/-- `sext_16`: the operand of ADDIU and the offset of LW and SW (R58). -/
def sext16 (imm : BitVec 16) : Word := imm.signExtend 32

/-- `zext_16`: the operand of ANDI and ORI (R58). -/
def zext16 (imm : BitVec 16) : Word := imm.zeroExtend 32

/-- LUI's operand: the immediate in bits 31:16, zero below (R58, R103). -/
def upper16 (imm : BitVec 16) : Word := zext16 imm <<< 16

/-- The memory operand `x[rs] + sext_16(imm)`, modulo 2^32 (R110). -/
def effectiveAddress (s : State) (rs : RegIdx) (imm : BitVec 16) : Word := readReg s rs + sext16 imm

/-- The target of a taken branch, `pc + 4 + (sext_16(imm) << 2)`, modulo 2^32 (R120). -/
def branchTarget (s : State) (imm : BitVec 16) : Word := nextPc s + (sext16 imm <<< 2)

/-- The target of J, `(pc & 0xF0000000) | (target << 2)`, the upper bits from the J itself (R59, R123). -/
def jumpTarget (s : State) (target : BitVec 26) : Word :=
  (s.pc &&& 0xF0000000#32) ||| (target.zeroExtend 32 <<< 2)

end Sys2Proof.Machine
end

