-- ==== Sys2Proof/Machine/AluImmediate.lean ====
section
/-! DEFINITION. ADDIU, ANDI, ORI, LUI (spec/42_alu_immediate.md rules R100 to R104). The destination is rt. -/

namespace Sys2Proof.Machine

/-- ADDIU (R100): the immediate is sign-extended. -/
def execAddiu (rs rt : RegIdx) (imm : BitVec 16) (s : State) : Host.Outcome State Fault Refusal :=
  .next (writeBack rt (readReg s rs + sext16 imm) s)

/-- ANDI (R101): the immediate is zero-extended. -/
def execAndi (rs rt : RegIdx) (imm : BitVec 16) (s : State) : Host.Outcome State Fault Refusal :=
  .next (writeBack rt (readReg s rs &&& zext16 imm) s)

/-- ORI (R102): the immediate is zero-extended. -/
def execOri (rs rt : RegIdx) (imm : BitVec 16) (s : State) : Host.Outcome State Fault Refusal :=
  .next (writeBack rt (readReg s rs ||| zext16 imm) s)

/-- LUI (R103): reads no register. -/
def execLui (rt : RegIdx) (imm : BitVec 16) (s : State) : Host.Outcome State Fault Refusal :=
  .next (writeBack rt (upper16 imm) s)

end Sys2Proof.Machine
end

