-- ==== Sys2Proof/Machine/Flags.lean ====
section
/-! DEFINITION. The hardware has no flags (spec/10_state.md rule R17): comparison results "go to a general
register (SLT) or are consumed at once (BEQ, BNE)". Those comparisons are here. -/

namespace Sys2Proof.Machine

/-- SLT's result: 1 or 0, the comparison exact and of the two's-complement values (R95). -/
def setLessThan (a b : Word) : Word := if a.toInt < b.toInt then 1#32 else 0#32

/-- BEQ's condition: all 32 bits equal (R121). -/
def branchIfEqual (a b : Word) : Bool := a == b

/-- BNE's condition (R122). -/
def branchIfNotEqual (a b : Word) : Bool := a != b

end Sys2Proof.Machine
end

