-- ==== Sys2Proof/Machine/AluRegister.lean ====
section
/-! DEFINITION. ADD, SUB, AND, OR, SLT (spec/41_alu_register.md rules R90 to R96). -/

namespace Sys2Proof.Machine

/-- ADD (R91): `x[rd] <- x[rs] + x[rt]`, modulo 2^32, no overflow exception (R96). -/
def execAdd (rs rt rd : RegIdx) (s : State) : Host.Outcome State Fault Refusal :=
  .next (writeBack rd (readReg s rs + readReg s rt) s)

/-- SUB (R92): `x[rd] <- x[rs] - x[rt]`, modulo 2^32, no overflow exception (R96). -/
def execSub (rs rt rd : RegIdx) (s : State) : Host.Outcome State Fault Refusal :=
  .next (writeBack rd (readReg s rs - readReg s rt) s)

/-- AND (R93). -/
def execAnd (rs rt rd : RegIdx) (s : State) : Host.Outcome State Fault Refusal :=
  .next (writeBack rd (readReg s rs &&& readReg s rt) s)

/-- OR (R94). -/
def execOr (rs rt rd : RegIdx) (s : State) : Host.Outcome State Fault Refusal :=
  .next (writeBack rd (readReg s rs ||| readReg s rt) s)

/-- SLT (R95). -/
def execSlt (rs rt rd : RegIdx) (s : State) : Host.Outcome State Fault Refusal :=
  .next (writeBack rd (setLessThan (readReg s rs) (readReg s rt)) s)

end Sys2Proof.Machine
end

