-- ==== Sys2Proof/Machine/BranchJump.lean ====
section
/-! DEFINITION. BEQ, BNE, J (spec/44_branch_jump.md rules R120 to R126): no delay slot, no link. -/

namespace Sys2Proof.Machine

/-- A conditional branch: to the target if taken, else to the next instruction (R120). -/
def branchOn (taken : Bool) (imm : BitVec 16) (s : State) : State :=
  completeAt (if taken then branchTarget s imm else nextPc s) s

/-- BEQ (R121). -/
def execBeq (rs rt : RegIdx) (imm : BitVec 16) (s : State) : Host.Outcome State Fault Refusal :=
  .next (branchOn (branchIfEqual (readReg s rs) (readReg s rt)) imm s)

/-- BNE (R122). -/
def execBne (rs rt : RegIdx) (imm : BitVec 16) (s : State) : Host.Outcome State Fault Refusal :=
  .next (branchOn (branchIfNotEqual (readReg s rs) (readReg s rt)) imm s)

/-- J (R123): "PC is NOT further advanced by 4 this step". -/
def execJ (target : BitVec 26) (s : State) : Host.Outcome State Fault Refusal :=
  .next (completeAt (jumpTarget s target) s)

end Sys2Proof.Machine
end

