-- ==== Sys2Proof/Machine/LoadStore.lean ====
section
/-! DEFINITION. LW and SW (spec/43_load_store.md rules R110 to R113): any address, aligned or not. -/

namespace Sys2Proof.Machine

/-- LW (R111): `x[rt] <- MemRead(ea, 4)`. -/
def execLw (rs rt : RegIdx) (imm : BitVec 16) (s : State) : Host.Outcome State Fault Refusal :=
  .next (writeBack rt (s.mem.readWord (effectiveAddress s rs imm)) s)

/-- SW (R112): `MemWrite(ea, 4, x[rt])`; here rt is a source. -/
def execSw (rs rt : RegIdx) (imm : BitVec 16) (s : State) : Host.Outcome State Fault Refusal :=
  .next (storeBack (effectiveAddress s rs imm) (readReg s rt) s)

end Sys2Proof.Machine
end

