-- ==== Sys2Proof/Machine/Console.lean ====
section
/-! DEFINITION. How the console's bytes stand for values: `FormatDec` (spec/45_trap.md rule R133), `ParseInt`
(rule R143) and the division of an input byte stream into lines (rule R140). -/

namespace Sys2Proof.Machine

/-- The ASCII digit of a number below 10. -/
def digitByte (d : Nat) : Byte := BitVec.ofNat 8 (0x30 + d)

/-- ASCII `-`. -/
def minusByte : Byte := 0x2D#8

/-- Line feed and carriage return (R140). -/
def lineFeed : Byte := 0x0A#8
/-- See `lineFeed`. -/
def carriageReturn : Byte := 0x0D#8

/-- The decimal digits of `n`, no leading zero, at most `fuel` of them. -/
def decimalDigits (fuel n : Nat) : List Byte :=
  match fuel with
  | 0 => []
  | fuel + 1 => if n < 10 then [digitByte n] else decimalDigits fuel (n / 10) ++ [digitByte (n % 10)]

/-- `FormatDec` (R133, D8, log 8): the shortest decimal spelling of the signed value, `-` before a
negative one, nothing else. A 32-bit magnitude has at most ten digits. -/
def formatDec (v : Word) : List Byte :=
  if v.toInt < 0 then minusByte :: decimalDigits 10 v.toInt.natAbs else decimalDigits 10 v.toInt.natAbs

/-- The byte is an ASCII decimal digit. -/
def isDigit (b : Byte) : Bool := decide (0x30 ≤ b.toNat) && decide (b.toNat ≤ 0x39)

/-- The number a row of digits spells, most significant first. -/
def decimalValue (bytes : List Byte) : Nat := bytes.foldl (fun n b => 10 * n + (b.toNat - 0x30)) 0

/-- The signed number a line spells if it is a canonical spelling. -/
def signedValue (line : Line) : Int :=
  match line with
  | [] => 0
  | b :: rest => if b = minusByte then -(decimalValue rest : Int) else (decimalValue (b :: rest) : Int)

/-- The 32-bit value whose `FormatDec` the line is, if there is one. -/
def canonicalValue (line : Line) : Option Word :=
  let v := BitVec.ofInt 32 (signedValue line)
  if formatDec v = line then some v else none

/-- `ParseInt` on a line (R143, log 9): a canonical spelling gives its value (a), a line with no decimal
digit fails (c), any other line gives what `Config.parseOther` gives: a free value or a failure. -/
def parseLine (line : Line) : Option Word :=
  match canonicalValue line with
  | some v => some v
  | none => if line.any isDigit then Config.parseOther line else none

/-- `ParseInt` (R143): end of input fails (b). The value is the 32-bit two's-complement pattern of the
signed number (R135, D21, log 17); none is Failure. -/
def parseInt (got : Option Line) : Option Word :=
  match got with
  | none => none
  | some line => parseLine line

/-- Drop one carriage return at the end of a line, the one "immediately before the line feed" (R140). -/
def dropCarriageReturn (line : Line) : Line :=
  if line.getLast? = some carriageReturn then line.dropLast else line

/-- The lines of a byte stream, `current` being the bytes read since the last line feed (R140, D10). -/
def linesFrom (current : Line) (bytes : List Byte) : List Line :=
  match bytes with
  | [] => if current = [] then [] else [current]
  | b :: rest =>
    if b = lineFeed then dropCarriageReturn current :: linesFrom [] rest
    else linesFrom (current ++ [b]) rest

/-- The lines of a byte stream: what `INPUT` is when the console's input is given as bytes (R5, R140, D10,
log 10). -/
def linesOfBytes (bytes : List Byte) : List Line := linesFrom [] bytes

end Sys2Proof.Machine
end

