-- ==== Sys2Proof/Machine/Trap.lean ====
section
/-! DEFINITION. TRAP and the trap handler (spec/45_trap.md rules R130 to R144). -/

namespace Sys2Proof.Machine

/-- The trap code: the whole code register, read signed (R131, R132, D17, log 16). -/
def trapCode (s : State) : Int := (readReg s Config.trapCodeReg).toInt

/-- Trap 1, print integer (R133), then the epilogue (R138). -/
def trapPrintInt (s : State) : Host.Outcome State Fault Refusal :=
  .next (complete (consoleOut (formatDec (readReg s Config.trapArgReg)) s))

/-- Trap 4, print string (R134): the bytes unchanged (D24, log 20), then the epilogue (R138). With no
zero byte in memory the step never completes (R176, log 15). -/
def trapPrintString (s : State) : Host.Outcome State Fault Refusal :=
  match s.mem.readCString (readReg s Config.trapArgReg) with
  | some bytes => .next (complete (consoleOut bytes s))
  | none => .fault .unterminatedString

/-- Trap 5, read integer (R135): one line is consumed; a value goes to the code register; a failure is
reported on the error channel and 0 is substituted (R141, R155); then the epilogue (R138). -/
def trapReadInt (s : State) : Host.Outcome State Fault Refusal :=
  match parseInt (nextLine s) with
  | some v => .next (writeBack Config.trapCodeReg v (dropLine s))
  | none => .next (writeBack Config.trapCodeReg 0#32 (reportError (.inputParseError (nextLine s)) (dropLine s)))

/-- Trap 10, exit (R136): halt, "do not advance PC", no epilogue. -/
def trapExit (s : State) : Host.Outcome State Fault Refusal := .next (halt .exitTrap s)

/-- Any other code (R137): fatal, naming the code; no epilogue. -/
def trapUnknown (s : State) : Host.Outcome State Fault Refusal :=
  .next (raiseFatal .unknownTrap (trapCode s) s)

/-- The handler's dispatch table (R131). -/
def trapHandler (s : State) : Host.Outcome State Fault Refusal :=
  if trapCode s = 1 then trapPrintInt s
  else if trapCode s = 4 then trapPrintString s
  else if trapCode s = 5 then trapReadInt s
  else if trapCode s = 10 then trapExit s
  else trapUnknown s

/-- TRAP (R130): no operand field; the handler sets pc, x[0] and the run state itself. -/
def execTrap (s : State) : Host.Outcome State Fault Refusal := trapHandler s

end Sys2Proof.Machine
end

