-- ==== Sys2Proof/Machine/Dispatch.lean ====
section
/-! DEFINITION. Step 4 of the step algorithm (spec/40_step_cycle.md rules R81 and R84): each instruction to
its meaning. Fields an operation ignores (R57) are not handed on. -/

namespace Sys2Proof.Machine

def exec (i : Instr) (s : State) : Host.Outcome State Fault Refusal :=
  match i with
  | .add rs rt rd _ => Sys2Proof.Machine.execAdd rs rt rd s
  | .sub rs rt rd _ => Sys2Proof.Machine.execSub rs rt rd s
  | .and rs rt rd _ => Sys2Proof.Machine.execAnd rs rt rd s
  | .or rs rt rd _ => Sys2Proof.Machine.execOr rs rt rd s
  | .slt rs rt rd _ => Sys2Proof.Machine.execSlt rs rt rd s
  | .trap _ _ _ _ => Sys2Proof.Machine.execTrap s
  | .addiu rs rt imm => Sys2Proof.Machine.execAddiu rs rt imm s
  | .andi rs rt imm => Sys2Proof.Machine.execAndi rs rt imm s
  | .ori rs rt imm => Sys2Proof.Machine.execOri rs rt imm s
  | .lui _ rt imm => Sys2Proof.Machine.execLui rt imm s
  | .lw rs rt imm => Sys2Proof.Machine.execLw rs rt imm s
  | .sw rs rt imm => Sys2Proof.Machine.execSw rs rt imm s
  | .beq rs rt imm => Sys2Proof.Machine.execBeq rs rt imm s
  | .bne rs rt imm => Sys2Proof.Machine.execBne rs rt imm s
  | .j target => Sys2Proof.Machine.execJ target s

end Sys2Proof.Machine
end

