-- ==== Sys2Proof/Machine/Cycle.lean ====
section
/-! DEFINITION. The step algorithm of spec/40_step_cycle.md rule R81, from the fetched word on. -/

namespace Sys2Proof.Machine

/-- Steps 3 to 5 of R81: decode; a decode error is fatal at the pc (R83), an instruction is executed
(R84, R85). -/
def runWord (w : Word) (s : State) : Host.Outcome State Fault Refusal :=
  match decode w with
  | .ok i => exec i s
  | .error e => .next (raiseFatal (decodeErrorKind e) (decodeErrorCode e) s)

/-- Steps 1 to 5 of R81: fetch; "an all-zero 32-bit word" halts before decoding (R62, R82). -/
def runCycle (s : State) : Host.Outcome State Fault Refusal :=
  if fetchWord s = 0#32 then .next (halt .fellOffEnd s) else runWord (fetchWord s) s

/-- One step: while RUNNING the step algorithm (R81); in a terminal state nothing is fetched and nothing
changes (R88): the state is answered unchanged (DESIGN CHOICE, log 7). -/
def stepState (s : State) : Host.Outcome State Fault Refusal :=
  match s.runState with
  | .running => runCycle s
  | .halted _ => .next s
  | .fatal _ _ _ => .next s

end Sys2Proof.Machine
end

