-- ==== Sys2Proof/Machine/Step.lean ====
section
/-! DEFINITION. The step function and the host's way to place an instruction where it fetches. -/

namespace Sys2Proof.Machine

/-- One step of the machine (R81, R88). -/
def step (s : State) : Host.Outcome State Fault Refusal := stepState s

/-- The state with the `nbits` bits `w` as its next instruction: the word is stored at the pc and the run
state is RUNNING; nothing else changes (log 14). -/
def State.withFetchWord (s : State) (nbits w : Nat) : State := placeWord (BitVec.ofNat 32 (w % 2 ^ nbits)) s

end Sys2Proof.Machine
end

