-- ==== Sys2Proof/Safety.lean ====
section
/-! DEFINITION. The terms the statements are written in: what stays unchanged, what an instruction reads and
writes (spec/10_state.md rule R14), the invariant of every step, and what a safe end is. -/

namespace Sys2Proof.Safety

open Sys2Proof.Machine

/-- Every register reads as before. -/
def RegsSame (s t : State) : Prop := ∀ r, readReg t r = readReg s r

/-- Register 0 is zero (the epilogue, R85), every other register reads as before. -/
def RegsKept (s t : State) : Prop := ∀ r, readReg t r = if r = 0#5 then 0#32 else readReg s r

/-- Register 0 is zero (R85), `rd` holds `v` unless it is register 0, every other register reads as before. -/
def RegsWritten (s t : State) (rd : RegIdx) (v : Word) : Prop :=
  ∀ r, readReg t r = if r = 0#5 then 0#32 else if r = rd then v else readReg s r

/-- Every byte of memory reads as before. -/
def MemorySame (s t : State) : Prop := ∀ a, t.mem.readByte a = s.mem.readByte a

/-- Nothing was printed, read or reported. -/
def ConsoleSame (s t : State) : Prop := t.out = s.out ∧ t.input = s.input ∧ t.errors = s.errors

/-- The frame of an instruction whose one effect besides the pc's advance is register `rd`. -/
def WritesRegister (s t : State) (rd : RegIdx) (v : Word) : Prop :=
  t.pc = s.pc + 4#32 ∧ RegsWritten s t rd v ∧ MemorySame s t ∧ ConsoleSame s t ∧ t.runState = s.runState

/-- The frame of an instruction whose one effect is the pc. -/
def SetsPc (s t : State) (target : Word) : Prop :=
  t.pc = target ∧ RegsKept s t ∧ MemorySame s t ∧ ConsoleSame s t ∧ t.runState = s.runState

/-- The frame of the end of a run: pc, registers, memory and unread input are as they were (R82, R136, D18). -/
def MachineSame (s t : State) : Prop :=
  t.pc = s.pc ∧ RegsSame s t ∧ MemorySame s t ∧ t.input = s.input

/-- The register an instruction writes in this state (R14); trap 5 writes the code register. -/
def destination (i : Instr) (s : State) : Option RegIdx :=
  match i with
  | .add _ _ rd _ => some rd
  | .sub _ _ rd _ => some rd
  | .and _ _ rd _ => some rd
  | .or _ _ rd _ => some rd
  | .slt _ _ rd _ => some rd
  | .trap _ _ _ _ => if trapCode s = 5 then some Config.trapCodeReg else none
  | .addiu _ rt _ => some rt
  | .andi _ rt _ => some rt
  | .ori _ rt _ => some rt
  | .lui _ rt _ => some rt
  | .lw _ rt _ => some rt
  | .sw _ _ _ => none
  | .beq _ _ _ => none
  | .bne _ _ _ => none
  | .j _ => none

/-- The registers an instruction reads in this state (R14); traps 1 and 4 also read the argument register. -/
def sources (i : Instr) (s : State) : List RegIdx :=
  match i with
  | .add rs rt _ _ => [rs, rt]
  | .sub rs rt _ _ => [rs, rt]
  | .and rs rt _ _ => [rs, rt]
  | .or rs rt _ _ => [rs, rt]
  | .slt rs rt _ _ => [rs, rt]
  | .trap _ _ _ _ =>
    if trapCode s = 1 ∨ trapCode s = 4 then [Config.trapCodeReg, Config.trapArgReg] else [Config.trapCodeReg]
  | .addiu rs _ _ => [rs]
  | .andi rs _ _ => [rs]
  | .ori rs _ _ => [rs]
  | .lui _ _ _ => []
  | .lw rs _ _ => [rs]
  | .sw rs rt _ => [rs, rt]
  | .beq rs rt _ => [rs, rt]
  | .bne rs rt _ => [rs, rt]
  | .j _ => []

/-- The two states agree on everything but the general registers. -/
def SameButRegisters (s t : State) : Prop :=
  t.pc = s.pc ∧ t.mem = s.mem ∧ t.runState = s.runState ∧ ConsoleSame s t

/-- What every step keeps: memory is in its canonical form, register 0 is zero (R12), the pc is a multiple
of 4 (R16). -/
def Inv (s : State) : Prop := s.mem.wf ∧ readReg s 0#5 = 0#32 ∧ s.pc.toNat % 4 = 0

/-- The run ended with a fatal error (R159). -/
def EndedFatally (s : State) : Prop := ∃ kind code addr, s.runState = .fatal kind code addr

/-- A safe state: the run has not ended fatally. -/
def Safe (s : State) : Prop := ¬ EndedFatally s

end Sys2Proof.Safety
end

