-- ==== Sys2Proof/Certificates/Slice0/Obligations.lean ====
section
/-! DEFINITION. The statements for the provers. Each docstring names the rule of spec/ it formalises and, where a
clause rests on a decision of the spec or of this model, the decision and the log entry. -/

section

open Sys2Proof Sys2Proof.Machine Sys2Proof.Safety

/-! ### Reset -/

/-- R24: "PC = fixed text-segment base address and all registers zero", for every text base. That the
machine is RUNNING and has printed nothing is marked derived in R24; that memory and input are given whole, as the
image and a list of lines, is D15 and D10 (logs 14, 10). -/
def Obligations.ResetHoldsTheStatedValues : Prop :=
  ∀ (base : Word) (image : Memory) (input : List Line),
    (∀ r, readReg (State.resetWith base image input) r = 0#32) ∧
    (State.resetWith base image input).pc = base ∧
    (State.resetWith base image input).runState = .running ∧
    (State.resetWith base image input).mem = image ∧
    (State.resetWith base image input).out = [] ∧
    (State.resetWith base image input).input = input

/-- The invariant holds at `State.reset`, and after a reset with any aligned text base and any canonical image.
The values of `State.reset`'s text base, image and input are the model's choice (logs 1, 10, 14). -/
def Obligations.ResetMeetsTheInvariant : Prop :=
  Safety.Inv State.reset ∧
  ∀ (base : Word) (image : Memory) (input : List Line),
    base.toNat % 4 = 0 → image.wf → Safety.Inv (State.resetWith base image input)

/-! ### Invariants and whole-machine rules -/

/-- Every step keeps the invariant: canonical memory, register 0 zero (R12), pc a multiple of 4 (R16, R126). -/
def Obligations.EveryStepKeepsTheInvariant : Prop :=
  ∀ s t : State, Safety.Inv s → step s = .next t → Safety.Inv t

/-- R85: "Force register index 0 back to 0 after every instruction": whatever register 0 held, a step that
leaves the machine running leaves it zero; and every instruction but TRAP leaves it zero. -/
def Obligations.RegisterZeroIsForcedToZero : Prop :=
  (∀ s t : State, s.runState = .running → step s = .next t → t.runState = .running → readReg t 0#5 = 0#32) ∧
  ∀ (i : Instr) (s t : State), i.operation ≠ .trap → exec i s = .next t → readReg t 0#5 = 0#32

/-- D13 (log 13): in a state with register 0 zero, writing a register and then forcing register 0 is the same
as discarding writes to register 0. -/
def Obligations.WriteThenForceIsDiscard : Prop :=
  ∀ (s : State) (i : RegIdx) (v : Word), readReg s 0#5 = 0#32 →
    forceZero (writeReg i v s) = if i = 0#5 then s else writeReg i v s

/-- R14, the "writes" column: an instruction that completes changes no register but its destination and register 0.
TRAP's code register is D3's choice (log 3), and that the whole of it is the code is D17's (log 16). -/
def Obligations.OnlyTheDestinationRegisterChanges : Prop :=
  ∀ (i : Instr) (s t : State), exec i s = .next t →
    ∀ r, r ≠ 0#5 → destination i s ≠ some r → readReg t r = readReg s r

/-- R14, the "reads" column: two states that agree on everything but the registers, and on the registers the
instruction reads, give the same answer up to the registers it does not write. TRAP's registers are the choice of
D3 and D4 (log 3), and that the whole code register is the code is D17's (log 16). -/
def Obligations.OnlyTheSourceRegistersMatter : Prop :=
  ∀ (i : Instr) (s u : State), SameButRegisters s u → (∀ r ∈ sources i s, readReg u r = readReg s r) →
    (∀ t, exec i s = .next t → ∃ v, exec i u = .next v ∧ SameButRegisters t v ∧
      ∀ r, destination i s = some r → readReg v r = readReg t r) ∧
    (∀ f, exec i s = .fault f → exec i u = .fault f)

/-- R38: of the instructions only SW writes memory; no other changes any byte. -/
def Obligations.OnlyStoreWordChangesMemory : Prop :=
  ∀ (i : Instr) (s t : State), i.operation ≠ .sw → exec i s = .next t → MemorySame s t

/-- R139, R140: no instruction but TRAP prints, reads input, reports or ends the run. -/
def Obligations.OnlyTrapTouchesTheConsole : Prop :=
  ∀ (i : Instr) (s t : State), i.operation ≠ .trap → exec i s = .next t →
    ConsoleSame s t ∧ t.runState = s.runState

/-- R139 to R141: output and error reports only grow at the end, input is only taken from the front. -/
def Obligations.ConsoleStreamsOnlyAdvance : Prop :=
  ∀ s t : State, step s = .next t →
    (∃ bytes, t.out = s.out ++ bytes) ∧ (∃ reports, t.errors = s.errors ++ reports) ∧
    ∃ lines, lines.length ≤ 1 ∧ s.input = lines ++ t.input

/-- R57: the fields an operation ignores make no difference. -/
def Obligations.IgnoredFieldsMakeNoDifference : Prop :=
  ∀ s : State,
    (∀ rs rt rd a b, exec (.add rs rt rd a) s = exec (.add rs rt rd b) s) ∧
    (∀ rs rt rd a b, exec (.sub rs rt rd a) s = exec (.sub rs rt rd b) s) ∧
    (∀ rs rt rd a b, exec (.and rs rt rd a) s = exec (.and rs rt rd b) s) ∧
    (∀ rs rt rd a b, exec (.or rs rt rd a) s = exec (.or rs rt rd b) s) ∧
    (∀ rs rt rd a b, exec (.slt rs rt rd a) s = exec (.slt rs rt rd b) s) ∧
    (∀ rs rt rd a rs' rt' rd' b, exec (.trap rs rt rd a) s = exec (.trap rs' rt' rd' b) s) ∧
    (∀ rs rs' rt imm, exec (.lui rs rt imm) s = exec (.lui rs' rt imm) s)

/-! ### Encoding and decoding -/

/-- R68: "decode(enc(...)) returns the operation and the same read fields", here for every instruction, every field
kept. -/
def Obligations.DecodeOfEncodeIsTheInstruction : Prop :=
  ∀ i : Instr, decode (encode i) = .ok i

/-- The other direction: a word that decodes is the encoding of what it decodes to. -/
def Obligations.EncodeOfDecodeIsTheWord : Prop :=
  ∀ (w : Word) (i : Instr), decode w = .ok i → encode i = w

/-- Words written out bit by bit from the formats of R52 and the numbers of R54 and R55 decode to the instructions
they stand for. -/
def Obligations.WordsOfTheFormatsDecode : Prop :=
  decode 0b000000_00010_00011_00100_00000_100000#32 = .ok (.add 2#5 3#5 4#5 0#5) ∧
  decode 0b000000_11111_11111_11111_11111_001100#32 = .ok (.trap 31#5 31#5 31#5 31#5) ∧
  decode 0b001001_01001_01001_1111111111111111#32 = .ok (.addiu 9#5 9#5 0xFFFF#16) ∧
  decode 0b100011_01000_01001_1111111111111100#32 = .ok (.lw 8#5 9#5 0xFFFC#16) ∧
  decode 0b101011_01000_01001_0000000000001000#32 = .ok (.sw 8#5 9#5 8#16) ∧
  decode 0b000101_01001_00000_1111111111111011#32 = .ok (.bne 9#5 0#5 0xFFFB#16) ∧
  decode 0b000010_00000100000000000000000110#32 = .ok (.j 0x0100006#26)

/-- R65(c): decode succeeds exactly on the nine opcodes and, under opcode 0, the six functions. -/
def Obligations.DecodeSucceedsExactlyOnTheSupportedWords : Prop :=
  ∀ w : Word, (∃ i, decode w = .ok i) ↔
    (w.toNat / 2 ^ 26 ∈ [2, 4, 5, 9, 12, 13, 15, 35, 43] ∨
      (w.toNat / 2 ^ 26 = 0 ∧ w.toNat % 64 ∈ [12, 32, 34, 36, 37, 42]))

/-- R61: every other word is refused by name, with the opcode or the function it holds. -/
def Obligations.IllegalWordsAreNamed : Prop :=
  ∀ w : Word,
    (w.toNat / 2 ^ 26 ∉ [0, 2, 4, 5, 9, 12, 13, 15, 35, 43] →
      decode w = .error (.unknownOpcode (BitVec.ofNat 6 (w.toNat / 2 ^ 26)))) ∧
    (w.toNat / 2 ^ 26 = 0 → w.toNat % 64 ∉ [12, 32, 34, 36, 37, 42] →
      decode w = .error (.unknownFunction (BitVec.ofNat 6 (w.toNat % 64))))

/-- R51: the decoded fields are the bits 25:21, 20:16, 15:11, 10:6, 15:0 and 25:0 of the word, those its class
extracts (R54, R55); the class is chosen by bits 31:26, the operation of the register class by bits 5:0. -/
def Obligations.DecodedFieldsAreTheWordsBits : Prop :=
  ∀ (w : Word) (i : Instr), decode w = .ok i →
    i.toRecord.rs.toNat = w.toNat / 2 ^ 21 % 32 ∧
    i.toRecord.rt.toNat = w.toNat / 2 ^ 16 % 32 ∧
    (w.toNat / 2 ^ 26 = 0 →
      i.toRecord.rd.toNat = w.toNat / 2 ^ 11 % 32 ∧ i.toRecord.shiftAmount.toNat = w.toNat / 2 ^ 6 % 32 ∧
      (i.operation, w.toNat % 64) ∈ [(Operation.add, 32), (.sub, 34), (.and, 36), (.or, 37), (.slt, 42), (.trap, 12)]) ∧
    (w.toNat / 2 ^ 26 ≠ 0 →
      i.toRecord.immediate.toNat = w.toNat % 2 ^ 16 ∧ i.toRecord.jumpTarget.toNat = w.toNat % 2 ^ 26 ∧
      (i.operation, w.toNat / 2 ^ 26) ∈ [(Operation.addiu, 9), (.andi, 12), (.ori, 13), (.lui, 15), (.lw, 35),
        (.sw, 43), (.beq, 4), (.bne, 5), (.j, 2)])

/-- R57: a word decodes to a row's operation exactly when its bits under the row's mask are the row's match. -/
def Obligations.OpcodeRowsAgreeWithTheDecoder : Prop :=
  ∀ (w : Word) (row : OpcodeRow), row ∈ opcodeRows →
    (row.matchesWord w = true ↔ ∃ i, decode w = .ok i ∧ i.operation = row.operation)

/-! ### The step and the end of a run -/

/-- R81, R84: while RUNNING, a word at the pc that decodes is executed and a step is that execution; the word is
the four bytes from the pc on, big-endian. Nothing is added around it. -/
def Obligations.StepRunsTheDecodedInstruction : Prop :=
  ∀ (s : State) (i : Instr), s.runState = .running →
    decodeBytes (s.mem.readByte s.pc) (s.mem.readByte (s.pc + 1#32)) (s.mem.readByte (s.pc + 2#32))
      (s.mem.readByte (s.pc + 3#32)) = .ok i →
    step s = exec i s

/-- R82: an all-zero word at the pc halts with the message, whatever its bytes (log 11), "and does nothing else". -/
def Obligations.ZeroWordFallsOffTheEnd : Prop :=
  ∀ s : State, s.runState = .running →
    s.mem.readByte s.pc = 0#8 → s.mem.readByte (s.pc + 1#32) = 0#8 → s.mem.readByte (s.pc + 2#32) = 0#8 →
    s.mem.readByte (s.pc + 3#32) = 0#8 →
    ∃ t, step s = .next t ∧ t.runState = .halted .fellOffEnd ∧ t.out = s.out ++ Config.msgFellOffEnd ∧
      t.errors = s.errors ∧ MachineSame s t

/-- R83: a decode failure of a fetched word that is not zero ends the run FATAL with the code and the address. That
nothing else changes, and FATAL as a run state, are D18 and D7 (log 6); the report on the error channel is D12
(log 12). -/
def Obligations.DecodeFailureIsFatal : Prop :=
  ∀ s : State, s.runState = .running → fetchWord s ≠ 0#32 →
    (∀ c, decode (fetchWord s) = .error (.unknownOpcode c) →
      ∃ t, step s = .next t ∧ t.runState = .fatal .unknownOpcode c.toNat s.pc ∧ t.out = s.out ∧
        t.errors = s.errors ++ [.fatal .unknownOpcode c.toNat s.pc] ∧ MachineSame s t) ∧
    (∀ c, decode (fetchWord s) = .error (.unknownFunction c) →
      ∃ t, step s = .next t ∧ t.runState = .fatal .unknownFunction c.toNat s.pc ∧ t.out = s.out ∧
        t.errors = s.errors ++ [.fatal .unknownFunction c.toNat s.pc] ∧ MachineSame s t)

/-- R88: "nothing is fetched, nothing changes, and there is no way back to RUNNING": a step of a machine that is not
running answers the same state. That there is such a step at all is the model's choice (log 7). -/
def Obligations.TerminalStatesAbsorb : Prop :=
  ∀ s : State, s.runState ≠ .running → step s = .next s

/-- R80, R158, R179: a running machine stops running only on the zero word, on a decode failure, or in TRAP with
code 10 or an unknown code, and the run state says which. FATAL as a run state is D7 (log 6), the code
register D3 (log 3), the whole-register code D17 (log 16). -/
def Obligations.OnlyTheseEventsEndARun : Prop :=
  ∀ s t : State, s.runState = .running → step s = .next t → t.runState ≠ .running →
    (fetchWord s = 0#32 ∧ t.runState = .halted .fellOffEnd) ∨
    (fetchWord s ≠ 0#32 ∧ ∃ e, decode (fetchWord s) = .error e ∧
      t.runState = .fatal (decodeErrorKind e) (decodeErrorCode e) s.pc) ∨
    (∃ i, decode (fetchWord s) = .ok i ∧ i.operation = .trap ∧
      ((trapCode s = 10 ∧ t.runState = .halted .exitTrap) ∨
        (trapCode s ∉ [1, 4, 5, 10] ∧ t.runState = .fatal .unknownTrap (trapCode s) s.pc)))

/-- R160: a step that ends FATAL names the address it fetched from, reports the same triple and leaves registers,
pc, memory, input and console output as they were. That they are left so is D18 (log 6); the report is D12
(log 12). -/
def Obligations.FatalErrorsArePrecise : Prop :=
  ∀ (s t : State) (kind : FatalKind) (code : Int) (addr : Word), s.runState = .running → step s = .next t →
    t.runState = .fatal kind code addr →
    addr = s.pc ∧ t.errors = s.errors ++ [.fatal kind code addr] ∧ t.out = s.out ∧ MachineSame s t

/-- R150, R156: a run stays safe (it has not ended fatally) through every step whose word at the pc is zero or
decodes, TRAP being asked for one of the four known codes. FATAL as a run state is D7 (log 6), the whole-register
code D17 (log 16), the code register D3 (log 3). -/
def Obligations.SupportedCodeStaysSafe : Prop :=
  ∀ s t : State, Safe s → step s = .next t →
    (fetchWord s = 0#32 ∨
      ∃ i, decode (fetchWord s) = .ok i ∧ (i.operation = .trap → trapCode s ∈ [1, 4, 5, 10])) → Safe t

/-- A step never answers a refusal, and its one fault is the string read that never ends: TRAP with code 4 while no
byte of memory is zero (R156, R176). The spec says that this step never completes, "not an
error value and not a fault" (D20, U6): the fault is the model's own stand-in for that hang (log 15). The code register
is D3 (log 3), the whole-register code D17 (log 16). -/
def Obligations.TheOnlyFaultIsTheEndlessString : Prop :=
  (∀ (s : State) (r : Refusal), step s ≠ .refused r) ∧
  ∀ (s : State) (f : Fault), step s = .fault f ↔
    (s.runState = .running ∧ (∃ i, decode (fetchWord s) = .ok i ∧ i.operation = .trap) ∧ trapCode s = 4 ∧
      (∀ a, s.mem.readByte a ≠ 0#8) ∧ f = .unterminatedString)

/-- R179: the signal of each end; none while running. The status of falling off the end is open (D23, log 19): some
status, the same for every run. -/
def Obligations.EachEndHasItsSignal : Prop :=
  terminationSignal .running = none ∧
  (terminationSignal (.halted .exitTrap)).map TerminationSignal.exitStatus = some .success ∧
  (∃ status, terminationSignal (.halted .fellOffEnd) = some (.fellOffEnd status)) ∧
  ∀ kind code addr, terminationSignal (.fatal kind code addr) = some (.fatalError kind code addr) ∧
    (terminationSignal (.fatal kind code addr)).map TerminationSignal.exitStatus = some .nonSuccess

/-- R144: the two termination messages differ. Their bytes are open (D11, log 11). -/
def Obligations.TerminationMessagesDiffer : Prop :=
  haltMessage .exitTrap ≠ haltMessage .fellOffEnd

/-! ### Register-register ALU: every one completes in every state, with any operands -/

/-- R91: `x[rd] <- x[rs] + x[rt]` modulo 2^32, `pc <- pc + 4`, nothing else. -/
def Obligations.AddWritesTheSum : Prop :=
  ∀ (rs rt rd : RegIdx) (shamt : BitVec 5) (s : State), ∃ t, exec (.add rs rt rd shamt) s = .next t ∧
    WritesRegister s t rd (BitVec.ofNat 32 ((readReg s rs).toNat + (readReg s rt).toNat))

/-- R92: `x[rd] <- x[rs] - x[rt]`, that is `x[rs] + (2^32 - x[rt])` modulo 2^32, `pc <- pc + 4`, nothing else. -/
def Obligations.SubWritesTheDifference : Prop :=
  ∀ (rs rt rd : RegIdx) (shamt : BitVec 5) (s : State), ∃ t, exec (.sub rs rt rd shamt) s = .next t ∧
    WritesRegister s t rd (BitVec.ofNat 32 ((readReg s rs).toNat + (2 ^ 32 - (readReg s rt).toNat)))

/-- R93: `x[rd] <- x[rs] & x[rt]`, all 32 bits, `pc <- pc + 4`, nothing else. -/
def Obligations.AndWritesTheBitwiseAnd : Prop :=
  ∀ (rs rt rd : RegIdx) (shamt : BitVec 5) (s : State), ∃ t, exec (.and rs rt rd shamt) s = .next t ∧
    WritesRegister s t rd (readReg s rs &&& readReg s rt)

/-- R94: `x[rd] <- x[rs] | x[rt]`, all 32 bits, `pc <- pc + 4`, nothing else. -/
def Obligations.OrWritesTheBitwiseOr : Prop :=
  ∀ (rs rt rd : RegIdx) (shamt : BitVec 5) (s : State), ∃ t, exec (.or rs rt rd shamt) s = .next t ∧
    WritesRegister s t rd (readReg s rs ||| readReg s rt)

/-- R95: `x[rd] <- 1` if `signed(x[rs]) < signed(x[rt])` else 0, `pc <- pc + 4`, nothing else. -/
def Obligations.SltWritesTheSignedComparison : Prop :=
  ∀ (rs rt rd : RegIdx) (shamt : BitVec 5) (s : State), ∃ t, exec (.slt rs rt rd shamt) s = .next t ∧
    WritesRegister s t rd (if (readReg s rs).toInt < (readReg s rt).toInt then 1#32 else 0#32)

/-! ### Immediate ALU -/

/-- R100: `x[rt] <- x[rs] + sext_16(imm)` modulo 2^32, `pc <- pc + 4`, nothing else. -/
def Obligations.AddiuAddsTheSignedImmediate : Prop :=
  ∀ (rs rt : RegIdx) (imm : BitVec 16) (s : State), ∃ t, exec (.addiu rs rt imm) s = .next t ∧
    WritesRegister s t rt (readReg s rs + BitVec.ofInt 32 imm.toInt)

/-- R101: `x[rt] <- x[rs] & zext_16(imm)`, `pc <- pc + 4`, nothing else. -/
def Obligations.AndiAndsTheUnsignedImmediate : Prop :=
  ∀ (rs rt : RegIdx) (imm : BitVec 16) (s : State), ∃ t, exec (.andi rs rt imm) s = .next t ∧
    WritesRegister s t rt (readReg s rs &&& BitVec.ofNat 32 imm.toNat)

/-- R102: `x[rt] <- x[rs] | zext_16(imm)`, `pc <- pc + 4`, nothing else. -/
def Obligations.OriOrsTheUnsignedImmediate : Prop :=
  ∀ (rs rt : RegIdx) (imm : BitVec 16) (s : State), ∃ t, exec (.ori rs rt imm) s = .next t ∧
    WritesRegister s t rt (readReg s rs ||| BitVec.ofNat 32 imm.toNat)

/-- R103: `x[rt] <- zext_16(imm) << 16`, whatever rs holds, `pc <- pc + 4`, nothing else. -/
def Obligations.LuiLoadsTheUpperHalf : Prop :=
  ∀ (rs rt : RegIdx) (imm : BitVec 16) (s : State), ∃ t, exec (.lui rs rt imm) s = .next t ∧
    WritesRegister s t rt (BitVec.ofNat 32 (imm.toNat * 2 ^ 16))

/-! ### Load and store -/

/-- R110: `ea = x[rs] + sext_16(imm)` modulo 2^32. -/
def Obligations.EffectiveAddressIsBasePlusOffset : Prop :=
  ∀ (rs : RegIdx) (imm : BitVec 16) (s : State),
    ((effectiveAddress s rs imm).toNat : Int) = (((readReg s rs).toNat : Int) + imm.toInt) % 2 ^ 32

/-- R111: `x[rt] <- MemRead(ea, 4)` for every address, `pc <- pc + 4`, nothing else. The bytes of a word at
0xFFFFFFFD and above wrap to address 0 by D5 (log 4). -/
def Obligations.LwLoadsTheWord : Prop :=
  ∀ (rs rt : RegIdx) (imm : BitVec 16) (s : State), ∃ t, exec (.lw rs rt imm) s = .next t ∧
    WritesRegister s t rt (s.mem.readWord (effectiveAddress s rs imm))

/-- R112: `MemWrite(ea, 4, x[rt])` for every address: the four bytes at ea to ea + 3 are bits 31:24 to 7:0 of
`x[rt]`, every other byte reads as before; `pc <- pc + 4`; nothing else. The addresses are sums modulo 2^32 by D5
(log 4). -/
def Obligations.SwStoresTheWord : Prop :=
  ∀ (rs rt : RegIdx) (imm : BitVec 16) (s : State), ∃ t, exec (.sw rs rt imm) s = .next t ∧
    (∀ k : Nat, k < 4 → (t.mem.readByte (effectiveAddress s rs imm + BitVec.ofNat 32 k)).toNat =
      (readReg s rt).toNat / 2 ^ (8 * (3 - k)) % 256) ∧
    (∀ a : Word, (∀ k : Nat, k < 4 → a ≠ effectiveAddress s rs imm + BitVec.ofNat 32 k) →
      t.mem.readByte a = s.mem.readByte a) ∧
    t.pc = s.pc + 4#32 ∧ RegsKept s t ∧ ConsoleSame s t ∧ t.runState = s.runState

/-- R45: a fetch from the address of a store gives the stored word. Addresses wrap by D5 (log 4). -/
def Obligations.FetchSeesTheStore : Prop :=
  ∀ (rs rt : RegIdx) (imm : BitVec 16) (s t : State), exec (.sw rs rt imm) s = .next t →
    t.pc = effectiveAddress s rs imm → fetchWord t = readReg s rt

/-! ### Memory primitives -/

/-- R33: `MemRead(a, 4) = M[a]*2^24 + M[a+1]*2^16 + M[a+2]*2^8 + M[a+3]`. Addresses wrap by D5 (log 4). -/
def Obligations.WordReadIsBigEndian : Prop :=
  ∀ (m : Memory) (a : Word), (m.readWord a).toNat =
    (m.readByte a).toNat * 2 ^ 24 + (m.readByte (a + 1#32)).toNat * 2 ^ 16 +
      (m.readByte (a + 2#32)).toNat * 2 ^ 8 + (m.readByte (a + 3#32)).toNat

/-- R37, R47(a): "storing word `W` at address `A` then fetching at `A` returns `W`", any address, any memory. For
addresses at 0xFFFFFFFD and above this rests on D5 (log 4). -/
def Obligations.WordReadAfterWriteGivesTheWord : Prop :=
  ∀ (m : Memory) (a v : Word), (m.writeWord a v).readWord a = v

/-- R47(b): a word write leaves every byte outside its four addresses unchanged. Addresses wrap by D5 (log 4). -/
def Obligations.WordWriteLeavesOtherBytes : Prop :=
  ∀ (m : Memory) (a v b : Word), b ≠ a → b ≠ a + 1#32 → b ≠ a + 2#32 → b ≠ a + 3#32 →
    (m.writeWord a v).readByte b = m.readByte b

/-- R47(c): overlapping writes: after `v` at `a` and then `u` at `a + 1`, the word at `a` is the top byte of `v` and
the top three bytes of `u`. Addresses wrap by D5 (log 4). -/
def Obligations.OverlappingWritesCombine : Prop :=
  ∀ (m : Memory) (a v u : Word), (((m.writeWord a v).writeWord (a + 1#32) u).readWord a).toNat =
    v.toNat / 2 ^ 24 * 2 ^ 24 + u.toNat / 2 ^ 8

/-- Canonical memories that read the same at every address are the same list: equal memories are equal data (a
property of the model's form, log 24). -/
def Obligations.CanonicalMemoriesThatReadAlikeAreEqual : Prop :=
  ∀ m n : Memory, m.wf → n.wf → (∀ a, m.readByte a = n.readByte a) → m = n

/-- R35: the string read gives exactly the bytes before the first zero byte; it gives none exactly when no byte of
memory is zero. The wrap of the addresses is D5 (log 4); the answer none is the model's
stand-in for the read that never ends (D20, log 15). -/
def Obligations.StringReadStopsAtTheFirstZeroByte : Prop :=
  ∀ (m : Memory) (a : Word),
    (∀ bytes : List Byte, m.readCString a = some bytes ↔
      (bytes.length < 2 ^ 32 ∧
        (∀ k (h : k < bytes.length), bytes[k] = m.readByte (a + BitVec.ofNat 32 k) ∧ bytes[k] ≠ 0#8) ∧
        m.readByte (a + BitVec.ofNat 32 bytes.length) = 0#8)) ∧
    (m.readCString a = none ↔ ∀ b, m.readByte b ≠ 0#8)

/-- R171: after the loader stores the words of a segment at `base`, word `i` is at `base + 4*i`, and the bytes past
the segment are as they were. A segment of more than 2^30 words would overlap itself. Addresses wrap by D5
(log 4). -/
def Obligations.LoadedWordsAreAtTheirAddresses : Prop :=
  ∀ (m : Memory) (base : Word) (words : List Word), words.length ≤ 2 ^ 30 →
    (∀ k (h : k < words.length), (loadWords m base words).readWord (base + BitVec.ofNat 32 (4 * k)) = words[k]) ∧
    ∀ b : Word, (∀ k : Nat, k < 4 * words.length → b ≠ base + BitVec.ofNat 32 k) →
      (loadWords m base words).readByte b = m.readByte b

/-! ### Branch and jump -/

/-- R121: to `pc + 4 + (sext_16(imm) << 2)` if all 32 bits of the two registers are equal, else to `pc + 4`; nothing
else. -/
def Obligations.BeqBranchesOnEqual : Prop :=
  ∀ (rs rt : RegIdx) (imm : BitVec 16) (s : State), ∃ t, exec (.beq rs rt imm) s = .next t ∧
    SetsPc s t (if readReg s rs = readReg s rt then s.pc + 4#32 + BitVec.ofInt 32 (4 * imm.toInt) else s.pc + 4#32)

/-- R122: the same with "not equal". -/
def Obligations.BneBranchesOnNotEqual : Prop :=
  ∀ (rs rt : RegIdx) (imm : BitVec 16) (s : State), ∃ t, exec (.bne rs rt imm) s = .next t ∧
    SetsPc s t (if readReg s rs = readReg s rt then s.pc + 4#32 else s.pc + 4#32 + BitVec.ofInt 32 (4 * imm.toInt))

/-- R123: `pc <- (pc & 0xF0000000) | (target << 2)`: the region of the J itself, then the target times 4; no +4;
nothing else. -/
def Obligations.JumpStaysInItsRegion : Prop :=
  ∀ (target : BitVec 26) (s : State), ∃ t, exec (.j target) s = .next t ∧
    SetsPc s t (BitVec.ofNat 32 (s.pc.toNat / 2 ^ 28 * 2 ^ 28 + 4 * target.toNat))

/-! ### TRAP -/

/-- R131, R133, R138: with code 1 TRAP appends the decimal spelling of the argument register to the output and goes
on; nothing else. The spelling is D8 (log 8), the two registers D3 and D4 (log 3), the whole-register code D17
(log 16). -/
def Obligations.TrapOnePrintsTheInteger : Prop :=
  ∀ (rs rt rd : RegIdx) (shamt : BitVec 5) (s : State), (readReg s Config.trapCodeReg).toInt = 1 →
    ∃ t, exec (.trap rs rt rd shamt) s = .next t ∧
      t.out = s.out ++ formatDec (readReg s Config.trapArgReg) ∧ t.pc = s.pc + 4#32 ∧ RegsKept s t ∧
      MemorySame s t ∧ t.input = s.input ∧ t.errors = s.errors ∧ t.runState = s.runState

/-- R131, R134, R138: with code 4, if some byte of memory is zero, TRAP appends the bytes of the string at the
argument register to the output and goes on; nothing else. The bytes unchanged are D24 (log 20), the two registers
D3 and D4 (log 3), the whole-register code D17 (log 16), the wrap D5 (log 4). -/
def Obligations.TrapFourPrintsTheString : Prop :=
  ∀ (rs rt rd : RegIdx) (shamt : BitVec 5) (s : State), (readReg s Config.trapCodeReg).toInt = 4 →
    (∃ a, s.mem.readByte a = 0#8) →
    ∃ t bytes, exec (.trap rs rt rd shamt) s = .next t ∧
      s.mem.readCString (readReg s Config.trapArgReg) = some bytes ∧ t.out = s.out ++ bytes ∧
      t.pc = s.pc + 4#32 ∧ RegsKept s t ∧ MemorySame s t ∧ t.input = s.input ∧ t.errors = s.errors ∧
      t.runState = s.runState

/-- R131, R135, R138: with code 5 and a next line that parses, TRAP takes that one line, puts the value in the code
register and goes on; nothing else. What parses is R143 (D9, log 9); the lines are D10 (log 10), the code
register is D3 (log 3), the whole-register code D17 (log 16), the two's-complement pattern D21 (log 17). -/
def Obligations.TrapFiveStoresTheParsedInteger : Prop :=
  ∀ (rs rt rd : RegIdx) (shamt : BitVec 5) (s : State) (line : Line) (rest : List Line) (v : Word),
    (readReg s Config.trapCodeReg).toInt = 5 → s.input = line :: rest → parseInt (some line) = some v →
    ∃ t, exec (.trap rs rt rd shamt) s = .next t ∧ t.input = rest ∧ t.out = s.out ∧ t.errors = s.errors ∧
      t.pc = s.pc + 4#32 ∧ RegsWritten s t Config.trapCodeReg v ∧ MemorySame s t ∧ t.runState = s.runState

/-- R131, R135, R138, R155: with code 5 and a next line that does not parse, or end of input, TRAP reports it on the
error channel, puts 0 in the code register and goes on; nothing else. What parses is D9 (log 9), the lines are
D10 (log 10), the code register is D3 (log 3), the whole-register code D17 (log 16), the form of the report D12
(log 12). -/
def Obligations.TrapFiveSubstitutesZeroOnFailure : Prop :=
  ∀ (rs rt rd : RegIdx) (shamt : BitVec 5) (s : State), (readReg s Config.trapCodeReg).toInt = 5 →
    parseInt s.input.head? = none →
    ∃ t, exec (.trap rs rt rd shamt) s = .next t ∧ t.input = s.input.tail ∧ t.out = s.out ∧
      t.errors = s.errors ++ [.inputParseError s.input.head?] ∧
      t.pc = s.pc + 4#32 ∧ RegsWritten s t Config.trapCodeReg 0#32 ∧ MemorySame s t ∧ t.runState = s.runState

/-- R136: with code 10 TRAP emits the completion message and halts; pc, registers, memory and input are unchanged.
The code register is D3 (log 3), the whole-register code D17 (log 16), the message's bytes are free (D11, log 11). -/
def Obligations.TrapTenExits : Prop :=
  ∀ (rs rt rd : RegIdx) (shamt : BitVec 5) (s : State), (readReg s Config.trapCodeReg).toInt = 10 →
    ∃ t, exec (.trap rs rt rd shamt) s = .next t ∧ t.runState = .halted .exitTrap ∧
      t.out = s.out ++ Config.msgExit ∧ t.errors = s.errors ∧ MachineSame s t

/-- R137: with any other code TRAP ends the run FATAL, naming the code and the pc, and changes nothing else. The
whole-register comparison is D17 (log 16), the unchanged state D18 (log 6), the code register D3 (log 3), the report
D12 (log 12). -/
def Obligations.UnknownTrapCodeIsFatal : Prop :=
  ∀ (rs rt rd : RegIdx) (shamt : BitVec 5) (s : State),
    (readReg s Config.trapCodeReg).toInt ∉ [1, 4, 5, 10] →
    ∃ t, exec (.trap rs rt rd shamt) s = .next t ∧
      t.runState = .fatal .unknownTrap (readReg s Config.trapCodeReg).toInt s.pc ∧ t.out = s.out ∧
      t.errors = s.errors ++ [.fatal .unknownTrap (readReg s Config.trapCodeReg).toInt s.pc] ∧ MachineSame s t

/-- R133, `FormatDec`: a minus sign exactly for negative values, then at least one digit, no leading zero, and the
digits spell the magnitude. The spelling is D8 (log 8). -/
def Obligations.FormatDecIsTheShortestDecimalSpelling : Prop :=
  ∀ v : Word, ∃ digits : List Byte,
    formatDec v = (if v.toInt < 0 then [0x2D#8] else []) ++ digits ∧ digits ≠ [] ∧
    (∀ d ∈ digits, 0x30 ≤ d.toNat ∧ d.toNat ≤ 0x39) ∧
    (digits.head? = some 0x30#8 → digits.length = 1) ∧
    digits.foldl (fun n d => 10 * n + (d.toNat - 48)) 0 = v.toInt.natAbs

/-- R143(a) to (c): the contract of `ParseInt`: canonical spellings parse to their value, end of input fails, a line
with no decimal digit fails. The contract is D9 (log 9). -/
def Obligations.ParseIntMeetsItsContract : Prop :=
  (∀ v : Word, parseInt (some (formatDec v)) = some v) ∧ parseInt none = none ∧
  ∀ line : Line, (∀ b ∈ line, b.toNat < 0x30 ∨ 0x39 < b.toNat) → parseInt (some line) = none

/-- R140: a line ends before the next line feed, less one carriage return just before it; bytes after the last line
feed are a last line; no bytes, no line. The line form is D10 (log 10). -/
def Obligations.InputBytesSplitAtLineFeeds : Prop :=
  linesOfBytes [] = [] ∧
  (∀ line : Line, line ≠ [] → 0x0A#8 ∉ line → linesOfBytes line = [line]) ∧
  (∀ (line : Line) (rest : List Byte), 0x0A#8 ∉ line → line.getLast? ≠ some 0x0D#8 →
    linesOfBytes (line ++ 0x0A#8 :: rest) = line :: linesOfBytes rest) ∧
  (∀ (line : Line) (rest : List Byte), 0x0A#8 ∉ line →
    linesOfBytes (line ++ 0x0D#8 :: 0x0A#8 :: rest) = line :: linesOfBytes rest)

end
end

