-- ==== Sys2Proof/Laws/Encoding.lean ====
section
/-! SUPPORT. The fields of a word and the words of the formats as numbers (R51, R68). -/

namespace Sys2Proof

/-- Joining two bit strings, as numbers. -/
theorem append_toNat {m n : Nat} (x : BitVec m) (y : BitVec n) :
    (x ++ y).toNat = x.toNat * 2 ^ n + y.toNat := by
  rw [BitVec.toNat_append, ← Nat.shiftLeft_add_eq_or_of_lt y.isLt, Nat.shiftLeft_eq]

section
variable (w : Word)

theorem fieldOpcode_toNat : (fieldOpcode w).toNat = w.toNat / 2 ^ 26 := by
  simp [fieldOpcode, Nat.shiftRight_eq_div_pow]; omega
theorem fieldRs_toNat : (fieldRs w).toNat = w.toNat / 2 ^ 21 % 32 := by
  simp [fieldRs, Nat.shiftRight_eq_div_pow]
theorem fieldRt_toNat : (fieldRt w).toNat = w.toNat / 2 ^ 16 % 32 := by
  simp [fieldRt, Nat.shiftRight_eq_div_pow]
theorem fieldRd_toNat : (fieldRd w).toNat = w.toNat / 2 ^ 11 % 32 := by
  simp [fieldRd, Nat.shiftRight_eq_div_pow]
theorem fieldShamt_toNat : (fieldShamt w).toNat = w.toNat / 2 ^ 6 % 32 := by
  simp [fieldShamt, Nat.shiftRight_eq_div_pow]
theorem fieldFunct_toNat : (fieldFunct w).toNat = w.toNat % 64 := by
  simp [fieldFunct]
theorem fieldImm_toNat : (fieldImm w).toNat = w.toNat % 2 ^ 16 := by
  simp [fieldImm]
theorem fieldTarget_toNat : (fieldTarget w).toNat = w.toNat % 2 ^ 26 := by
  simp [fieldTarget]
end

section
variable (funct opcode : BitVec 6) (rs rt rd : RegIdx) (shamt : BitVec 5) (imm : BitVec 16) (target : BitVec 26)

/-- `enc_R` of R68 as a number. -/
theorem encR_toNat : (encR funct rs rt rd shamt).toNat =
    rs.toNat * 2 ^ 21 + rt.toNat * 2 ^ 16 + rd.toNat * 2 ^ 11 + shamt.toNat * 2 ^ 6 + funct.toNat := by
  have h : (encR funct rs rt rd shamt).toNat =
      (((((0#6).toNat * 2 ^ 5 + rs.toNat) * 2 ^ 5 + rt.toNat) * 2 ^ 5 + rd.toNat) * 2 ^ 5 + shamt.toNat) * 2 ^ 6
        + funct.toNat := by
    simp only [← append_toNat]; rfl
  rw [h, show (0#6).toNat = 0 from rfl]; omega

/-- `enc_I` of R68 as a number. -/
theorem encI_toNat : (encI opcode rs rt imm).toNat =
    opcode.toNat * 2 ^ 26 + rs.toNat * 2 ^ 21 + rt.toNat * 2 ^ 16 + imm.toNat := by
  have h : (encI opcode rs rt imm).toNat =
      ((opcode.toNat * 2 ^ 5 + rs.toNat) * 2 ^ 5 + rt.toNat) * 2 ^ 16 + imm.toNat := by
    simp only [← append_toNat]; rfl
  rw [h]; omega

/-- `enc_J` of R68 as a number. -/
theorem encJ_toNat : (encJ target).toNat = 2 * 2 ^ 26 + target.toNat := by
  have h : (encJ target).toNat = (2#6).toNat * 2 ^ 26 + target.toNat := by
    rw [← append_toNat]; rfl
  rw [h, show (2#6).toNat = 2 from rfl]

/-! The fields of an encoded word are the fields it was made from. -/

theorem fieldOpcode_encR : fieldOpcode (encR funct rs rt rd shamt) = 0#6 := by
  refine BitVec.eq_of_toNat_eq ?_
  have := funct.isLt; have := rs.isLt; have := rt.isLt; have := rd.isLt; have := shamt.isLt
  rw [fieldOpcode_toNat, encR_toNat, show (0#6).toNat = 0 from rfl]; omega
theorem fieldRs_encR : fieldRs (encR funct rs rt rd shamt) = rs := by
  refine BitVec.eq_of_toNat_eq ?_
  have := funct.isLt; have := rs.isLt; have := rt.isLt; have := rd.isLt; have := shamt.isLt
  rw [fieldRs_toNat, encR_toNat]; omega
theorem fieldRt_encR : fieldRt (encR funct rs rt rd shamt) = rt := by
  refine BitVec.eq_of_toNat_eq ?_
  have := funct.isLt; have := rs.isLt; have := rt.isLt; have := rd.isLt; have := shamt.isLt
  rw [fieldRt_toNat, encR_toNat]; omega
theorem fieldRd_encR : fieldRd (encR funct rs rt rd shamt) = rd := by
  refine BitVec.eq_of_toNat_eq ?_
  have := funct.isLt; have := rs.isLt; have := rt.isLt; have := rd.isLt; have := shamt.isLt
  rw [fieldRd_toNat, encR_toNat]; omega
theorem fieldShamt_encR : fieldShamt (encR funct rs rt rd shamt) = shamt := by
  refine BitVec.eq_of_toNat_eq ?_
  have := funct.isLt; have := rs.isLt; have := rt.isLt; have := rd.isLt; have := shamt.isLt
  rw [fieldShamt_toNat, encR_toNat]; omega
theorem fieldFunct_encR : fieldFunct (encR funct rs rt rd shamt) = funct := by
  refine BitVec.eq_of_toNat_eq ?_
  have := funct.isLt; have := rs.isLt; have := rt.isLt; have := rd.isLt; have := shamt.isLt
  rw [fieldFunct_toNat, encR_toNat]; omega
theorem fieldOpcode_encI : fieldOpcode (encI opcode rs rt imm) = opcode := by
  refine BitVec.eq_of_toNat_eq ?_
  have := opcode.isLt; have := rs.isLt; have := rt.isLt; have := imm.isLt
  rw [fieldOpcode_toNat, encI_toNat]; omega
theorem fieldRs_encI : fieldRs (encI opcode rs rt imm) = rs := by
  refine BitVec.eq_of_toNat_eq ?_
  have := opcode.isLt; have := rs.isLt; have := rt.isLt; have := imm.isLt
  rw [fieldRs_toNat, encI_toNat]; omega
theorem fieldRt_encI : fieldRt (encI opcode rs rt imm) = rt := by
  refine BitVec.eq_of_toNat_eq ?_
  have := opcode.isLt; have := rs.isLt; have := rt.isLt; have := imm.isLt
  rw [fieldRt_toNat, encI_toNat]; omega
theorem fieldImm_encI : fieldImm (encI opcode rs rt imm) = imm := by
  refine BitVec.eq_of_toNat_eq ?_
  have := opcode.isLt; have := rs.isLt; have := rt.isLt; have := imm.isLt
  rw [fieldImm_toNat, encI_toNat]; omega
theorem fieldOpcode_encJ : fieldOpcode (encJ target) = 2#6 := by
  refine BitVec.eq_of_toNat_eq ?_
  have := target.isLt
  rw [fieldOpcode_toNat, encJ_toNat, show (2#6).toNat = 2 from rfl]; omega
theorem fieldTarget_encJ : fieldTarget (encJ target) = target := by
  refine BitVec.eq_of_toNat_eq ?_
  have := target.isLt
  rw [fieldTarget_toNat, encJ_toNat]; omega

end

end Sys2Proof
end

