-- ==== Sys2Proof/Laws/State.lean ====
section
/-! SUPPORT. One lemma per field per named update of the state, each true by `rfl`, so that no proof unfolds a
record update. -/

namespace Sys2Proof.Machine

@[simp] theorem writeReg_pc (i : RegIdx) (v : Word) (s : State) : (writeReg i v s).pc = s.pc := rfl
@[simp] theorem writeReg_mem (i : RegIdx) (v : Word) (s : State) : (writeReg i v s).mem = s.mem := rfl
@[simp] theorem writeReg_runState (i : RegIdx) (v : Word) (s : State) : (writeReg i v s).runState = s.runState := rfl
@[simp] theorem writeReg_out (i : RegIdx) (v : Word) (s : State) : (writeReg i v s).out = s.out := rfl
@[simp] theorem writeReg_input (i : RegIdx) (v : Word) (s : State) : (writeReg i v s).input = s.input := rfl
@[simp] theorem writeReg_errors (i : RegIdx) (v : Word) (s : State) : (writeReg i v s).errors = s.errors := rfl

@[simp] theorem forceZero_pc (s : State) : (forceZero s).pc = s.pc := rfl
@[simp] theorem forceZero_mem (s : State) : (forceZero s).mem = s.mem := rfl
@[simp] theorem forceZero_runState (s : State) : (forceZero s).runState = s.runState := rfl
@[simp] theorem forceZero_out (s : State) : (forceZero s).out = s.out := rfl
@[simp] theorem forceZero_input (s : State) : (forceZero s).input = s.input := rfl
@[simp] theorem forceZero_errors (s : State) : (forceZero s).errors = s.errors := rfl

@[simp] theorem completeAt_pc (target : Word) (s : State) : (completeAt target s).pc = target := rfl
@[simp] theorem completeAt_mem (target : Word) (s : State) : (completeAt target s).mem = s.mem := rfl
@[simp] theorem completeAt_runState (target : Word) (s : State) : (completeAt target s).runState = s.runState := rfl
@[simp] theorem completeAt_out (target : Word) (s : State) : (completeAt target s).out = s.out := rfl
@[simp] theorem completeAt_input (target : Word) (s : State) : (completeAt target s).input = s.input := rfl
@[simp] theorem completeAt_errors (target : Word) (s : State) : (completeAt target s).errors = s.errors := rfl

@[simp] theorem complete_pc (s : State) : (complete s).pc = nextPc s := rfl
@[simp] theorem complete_mem (s : State) : (complete s).mem = s.mem := rfl
@[simp] theorem complete_runState (s : State) : (complete s).runState = s.runState := rfl
@[simp] theorem complete_out (s : State) : (complete s).out = s.out := rfl
@[simp] theorem complete_input (s : State) : (complete s).input = s.input := rfl
@[simp] theorem complete_errors (s : State) : (complete s).errors = s.errors := rfl

@[simp] theorem writeBack_pc (i : RegIdx) (v : Word) (s : State) : (writeBack i v s).pc = nextPc s := rfl
@[simp] theorem writeBack_mem (i : RegIdx) (v : Word) (s : State) : (writeBack i v s).mem = s.mem := rfl
@[simp] theorem writeBack_runState (i : RegIdx) (v : Word) (s : State) : (writeBack i v s).runState = s.runState := rfl
@[simp] theorem writeBack_out (i : RegIdx) (v : Word) (s : State) : (writeBack i v s).out = s.out := rfl
@[simp] theorem writeBack_input (i : RegIdx) (v : Word) (s : State) : (writeBack i v s).input = s.input := rfl
@[simp] theorem writeBack_errors (i : RegIdx) (v : Word) (s : State) : (writeBack i v s).errors = s.errors := rfl

@[simp] theorem storeBack_pc (a v : Word) (s : State) : (storeBack a v s).pc = nextPc s := rfl
@[simp] theorem storeBack_mem (a v : Word) (s : State) : (storeBack a v s).mem = s.mem.writeWord a v := rfl
@[simp] theorem storeBack_runState (a v : Word) (s : State) : (storeBack a v s).runState = s.runState := rfl
@[simp] theorem storeBack_out (a v : Word) (s : State) : (storeBack a v s).out = s.out := rfl
@[simp] theorem storeBack_input (a v : Word) (s : State) : (storeBack a v s).input = s.input := rfl
@[simp] theorem storeBack_errors (a v : Word) (s : State) : (storeBack a v s).errors = s.errors := rfl

@[simp] theorem consoleOut_regs (bytes : List Byte) (s : State) : (consoleOut bytes s).regs = s.regs := rfl
@[simp] theorem consoleOut_pc (bytes : List Byte) (s : State) : (consoleOut bytes s).pc = s.pc := rfl
@[simp] theorem consoleOut_mem (bytes : List Byte) (s : State) : (consoleOut bytes s).mem = s.mem := rfl
@[simp] theorem consoleOut_runState (bytes : List Byte) (s : State) : (consoleOut bytes s).runState = s.runState := rfl
@[simp] theorem consoleOut_out (bytes : List Byte) (s : State) : (consoleOut bytes s).out = s.out ++ bytes := rfl
@[simp] theorem consoleOut_input (bytes : List Byte) (s : State) : (consoleOut bytes s).input = s.input := rfl
@[simp] theorem consoleOut_errors (bytes : List Byte) (s : State) : (consoleOut bytes s).errors = s.errors := rfl

@[simp] theorem reportError_regs (r : ErrorReport) (s : State) : (reportError r s).regs = s.regs := rfl
@[simp] theorem reportError_pc (r : ErrorReport) (s : State) : (reportError r s).pc = s.pc := rfl
@[simp] theorem reportError_mem (r : ErrorReport) (s : State) : (reportError r s).mem = s.mem := rfl
@[simp] theorem reportError_runState (r : ErrorReport) (s : State) : (reportError r s).runState = s.runState := rfl
@[simp] theorem reportError_out (r : ErrorReport) (s : State) : (reportError r s).out = s.out := rfl
@[simp] theorem reportError_input (r : ErrorReport) (s : State) : (reportError r s).input = s.input := rfl
@[simp] theorem reportError_errors (r : ErrorReport) (s : State) : (reportError r s).errors = s.errors ++ [r] := rfl

@[simp] theorem dropLine_regs (s : State) : (dropLine s).regs = s.regs := rfl
@[simp] theorem dropLine_pc (s : State) : (dropLine s).pc = s.pc := rfl
@[simp] theorem dropLine_mem (s : State) : (dropLine s).mem = s.mem := rfl
@[simp] theorem dropLine_runState (s : State) : (dropLine s).runState = s.runState := rfl
@[simp] theorem dropLine_out (s : State) : (dropLine s).out = s.out := rfl
@[simp] theorem dropLine_input (s : State) : (dropLine s).input = s.input.tail := rfl
@[simp] theorem dropLine_errors (s : State) : (dropLine s).errors = s.errors := rfl

@[simp] theorem halt_regs (reason : HaltReason) (s : State) : (halt reason s).regs = s.regs := rfl
@[simp] theorem halt_pc (reason : HaltReason) (s : State) : (halt reason s).pc = s.pc := rfl
@[simp] theorem halt_mem (reason : HaltReason) (s : State) : (halt reason s).mem = s.mem := rfl
@[simp] theorem halt_runState (reason : HaltReason) (s : State) : (halt reason s).runState = .halted reason := rfl
@[simp] theorem halt_out (reason : HaltReason) (s : State) : (halt reason s).out = s.out ++ haltMessage reason := rfl
@[simp] theorem halt_input (reason : HaltReason) (s : State) : (halt reason s).input = s.input := rfl
@[simp] theorem halt_errors (reason : HaltReason) (s : State) : (halt reason s).errors = s.errors := rfl

@[simp] theorem raiseFatal_regs (kind : FatalKind) (code : Int) (s : State) : (raiseFatal kind code s).regs = s.regs := rfl
@[simp] theorem raiseFatal_pc (kind : FatalKind) (code : Int) (s : State) : (raiseFatal kind code s).pc = s.pc := rfl
@[simp] theorem raiseFatal_mem (kind : FatalKind) (code : Int) (s : State) : (raiseFatal kind code s).mem = s.mem := rfl
@[simp] theorem raiseFatal_runState (kind : FatalKind) (code : Int) (s : State) : (raiseFatal kind code s).runState = .fatal kind code s.pc := rfl
@[simp] theorem raiseFatal_out (kind : FatalKind) (code : Int) (s : State) : (raiseFatal kind code s).out = s.out := rfl
@[simp] theorem raiseFatal_input (kind : FatalKind) (code : Int) (s : State) : (raiseFatal kind code s).input = s.input := rfl
@[simp] theorem raiseFatal_errors (kind : FatalKind) (code : Int) (s : State) : (raiseFatal kind code s).errors = s.errors ++ [.fatal kind code s.pc] := rfl

@[simp] theorem placeWord_regs (w : Word) (s : State) : (placeWord w s).regs = s.regs := rfl
@[simp] theorem placeWord_pc (w : Word) (s : State) : (placeWord w s).pc = s.pc := rfl
@[simp] theorem placeWord_mem (w : Word) (s : State) : (placeWord w s).mem = s.mem.writeWord s.pc w := rfl
@[simp] theorem placeWord_runState (w : Word) (s : State) : (placeWord w s).runState = .running := rfl
@[simp] theorem placeWord_out (w : Word) (s : State) : (placeWord w s).out = s.out := rfl
@[simp] theorem placeWord_input (w : Word) (s : State) : (placeWord w s).input = s.input := rfl
@[simp] theorem placeWord_errors (w : Word) (s : State) : (placeWord w s).errors = s.errors := rfl

end Sys2Proof.Machine
end

