-- ==== Sys2Proof/Laws/Memory.lean ====
section
/-! SUPPORT. Bytes read after bytes written, and that every memory operation keeps the canonical form. -/

namespace Sys2Proof.Machine

/-- An address that no cell lists reads as the unlisted byte (R31). -/
theorem readByte_of_unlisted (m : Memory) (a : Word) (h : ∀ c ∈ m, c.1 ≠ a.toNat) :
    m.readByte a = unlistedByte := by
  induction m with
  | nil => rfl
  | cons c rest ih =>
    simp only [List.mem_cons, forall_eq_or_imp] at h
    simp [Memory.readByte, h.1, ih h.2]

/-- Dropping the cells of another address leaves a byte as it was. -/
theorem readByte_filter_ne (m : Memory) (k : Nat) (a : Word) (h : a.toNat ≠ k) :
    Memory.readByte (m.filter (fun c => c.1 != k)) a = m.readByte a := by
  induction m with
  | nil => rfl
  | cons c rest ih =>
    by_cases hk : c.1 = k
    · have hne : c.1 ≠ a.toNat := fun e => h (e.symm.trans hk)
      rw [List.filter_cons_of_neg (by simp [hk]), ih, Memory.readByte, if_neg hne]
    · rw [List.filter_cons_of_pos (by simp [hk]), Memory.readByte, Memory.readByte, ih]

/-- The inserted cell is read at its address, where no cell lay before. -/
theorem readByte_insertCell_self (m : Memory) (a : Word) (b : Byte) (h : ∀ c ∈ m, c.1 ≠ a.toNat) :
    Memory.readByte (m.insertCell a.toNat b) a = b := by
  induction m with
  | nil => simp [Memory.insertCell, Memory.readByte]
  | cons c rest ih =>
    simp only [List.mem_cons, forall_eq_or_imp] at h
    by_cases hlt : a.toNat < c.1
    · simp [Memory.insertCell, hlt, Memory.readByte]
    · simp [Memory.insertCell, hlt, Memory.readByte, h.1, ih h.2]

/-- Inserting a cell leaves the other addresses. -/
theorem readByte_insertCell_ne (m : Memory) (k : Nat) (a : Word) (b : Byte) (h : a.toNat ≠ k) :
    Memory.readByte (m.insertCell k b) a = m.readByte a := by
  induction m with
  | nil => simp [Memory.insertCell, Memory.readByte, Ne.symm h]
  | cons c rest ih =>
    by_cases hlt : k < c.1
    · simp [Memory.insertCell, hlt, Memory.readByte, Ne.symm h]
    · simp [Memory.insertCell, hlt, Memory.readByte, ih]

/-- A byte read after a byte write: the written byte at that address, else as before; in any memory. -/
theorem readByte_writeByte (m : Memory) (a c : Word) (b : Byte) :
    (m.writeByte a b).readByte c = if c = a then b else m.readByte c := by
  have hgone : ∀ d ∈ m.filter (fun d => d.1 != a.toNat), d.1 ≠ a.toNat := by
    intro d hd; simpa using (List.mem_filter.mp hd).2
  by_cases hc : c = a
  · subst hc
    by_cases hb : b = unlistedByte
    · simp [Memory.writeByte, hb, readByte_of_unlisted _ _ hgone]
    · simp [Memory.writeByte, hb, readByte_insertCell_self _ _ _ hgone]
  · have hn : c.toNat ≠ a.toNat := fun e => hc (BitVec.eq_of_toNat_eq e)
    by_cases hb : b = unlistedByte
    · simp [Memory.writeByte, hb, hc, readByte_filter_ne _ _ _ hn]
    · simp [Memory.writeByte, hb, hc, readByte_insertCell_ne _ _ _ _ hn, readByte_filter_ne _ _ _ hn]

/-- The cells after an insertion are the new one and the old ones. -/
theorem mem_insertCell (m : Memory) (k : Nat) (b : Byte) (c : Host.Cell) :
    c ∈ m.insertCell k b ↔ c = (k, b) ∨ c ∈ m := by
  induction m with
  | nil => simp [Memory.insertCell]
  | cons d rest ih =>
    by_cases hlt : k < d.1
    · simp [Memory.insertCell, hlt]
    · simp only [Memory.insertCell, hlt, if_false, List.mem_cons, ih]
      tauto

/-- Inserting at an address no cell lists keeps the addresses strictly rising. -/
theorem insertCell_rising (m : Memory) (k : Nat) (b : Byte) (hm : m.Pairwise fun c d => c.1 < d.1)
    (hk : ∀ c ∈ m, c.1 ≠ k) : (m.insertCell k b).Pairwise fun c d => c.1 < d.1 := by
  induction m with
  | nil => simp [Memory.insertCell]
  | cons c rest ih =>
    rw [List.pairwise_cons] at hm
    simp only [List.mem_cons, forall_eq_or_imp] at hk
    by_cases hlt : k < c.1
    · rw [Memory.insertCell, if_pos hlt, List.pairwise_cons, List.pairwise_cons]
      refine ⟨?_, hm⟩
      simp only [List.mem_cons, forall_eq_or_imp]
      exact ⟨hlt, fun d hd => hlt.trans (hm.1 d hd)⟩
    · rw [Memory.insertCell, if_neg hlt, List.pairwise_cons]
      refine ⟨fun d hd => ?_, ih hm.2 hk.2⟩
      rcases (mem_insertCell rest k b d).mp hd with rfl | hd
      · exact lt_of_le_of_ne (not_lt.mp hlt) hk.1
      · exact hm.1 d hd

/-- A byte write keeps the canonical form. -/
theorem wf_writeByte (m : Memory) (a : Word) (b : Byte) (hm : m.wf) : (m.writeByte a b).wf := by
  have hrise := hm.1.filter (fun c => c.1 != a.toNat)
  have hcells : ∀ c ∈ m.filter (fun c => c.1 != a.toNat), c.1 < 2 ^ 32 ∧ c.2 ≠ unlistedByte :=
    fun c hc => hm.2 c (List.mem_filter.mp hc).1
  by_cases hb : b = unlistedByte
  · simpa only [Memory.writeByte, hb, if_true] using (⟨hrise, hcells⟩ : Memory.wf _)
  · have hgone : ∀ c ∈ m.filter (fun c => c.1 != a.toNat), c.1 ≠ a.toNat := by
      intro c hc; simpa using (List.mem_filter.mp hc).2
    simp only [Memory.writeByte, hb, if_false]
    refine ⟨insertCell_rising _ _ _ hrise hgone, fun c hc => ?_⟩
    rcases (mem_insertCell _ _ _ c).mp hc with rfl | hc
    · exact ⟨a.isLt, hb⟩
    · exact hcells c hc

/-- A word write keeps the canonical form. -/
theorem wf_writeWord (m : Memory) (a v : Word) (hm : m.wf) : (m.writeWord a v).wf :=
  wf_writeByte _ _ _ (wf_writeByte _ _ _ (wf_writeByte _ _ _ (wf_writeByte _ _ _ hm)))

/-- Loading a segment keeps the canonical form. -/
theorem wf_loadWords (m : Memory) (a : Word) (words : List Word) (hm : m.wf) : (loadWords m a words).wf := by
  induction words generalizing m a with
  | nil => exact hm
  | cons w rest ih => exact ih _ _ (wf_writeWord m a w hm)

/-- The loader's image is canonical. -/
theorem wf_loadImage (textBase : Word) (text : List Word) (dataBase : Word) (data : List Word) :
    (loadImage textBase text dataBase data).wf :=
  wf_loadWords _ _ _ (wf_loadWords _ _ _ (by decide))

/-- The memory after reset is canonical. -/
theorem wf_reset_mem : State.reset.mem.wf := by decide

end Sys2Proof.Machine
end

