-- ==== Sys2Proof/Laws/Registers.lean ====
section
/-! SUPPORT. What reading a register gives after each named operation. -/

namespace Sys2Proof.Machine

/-- A register read after a write: the written value at that index, else as before. -/
theorem readReg_writeReg (s : State) (i r : RegIdx) (v : Word) :
    readReg (writeReg i v s) r = if r = i then v else readReg s r := by
  by_cases h : r = i
  · simp [readReg, writeReg, h]
  · have hn : i.toNat ≠ r.toNat := fun e => h (BitVec.eq_of_toNat_eq e.symm)
    simp [readReg, writeReg, h, Vector.getElem_set_ne _ _ hn]

/-- Registers are read from the register file alone. -/
theorem readReg_congr {s t : State} (h : t.regs = s.regs) (r : RegIdx) : readReg t r = readReg s r := by
  simp [readReg, h]

@[simp] theorem readReg_consoleOut (bytes : List Byte) (s : State) (r : RegIdx) :
    readReg (consoleOut bytes s) r = readReg s r := rfl
@[simp] theorem readReg_reportError (e : ErrorReport) (s : State) (r : RegIdx) :
    readReg (reportError e s) r = readReg s r := rfl
@[simp] theorem readReg_dropLine (s : State) (r : RegIdx) : readReg (dropLine s) r = readReg s r := rfl
@[simp] theorem readReg_halt (reason : HaltReason) (s : State) (r : RegIdx) :
    readReg (halt reason s) r = readReg s r := rfl
@[simp] theorem readReg_raiseFatal (kind : FatalKind) (code : Int) (s : State) (r : RegIdx) :
    readReg (raiseFatal kind code s) r = readReg s r := rfl
@[simp] theorem readReg_placeWord (w : Word) (s : State) (r : RegIdx) :
    readReg (placeWord w s) r = readReg s r := rfl

/-- The epilogue leaves every register but register 0. -/
theorem readReg_completeAt (target : Word) (s : State) (r : RegIdx) :
    readReg (completeAt target s) r = if r = 0#5 then 0#32 else readReg s r :=
  readReg_writeReg { s with pc := target } 0#5 r 0#32

/-- The same for the default completion. -/
theorem readReg_complete (s : State) (r : RegIdx) :
    readReg (complete s) r = if r = 0#5 then 0#32 else readReg s r :=
  readReg_completeAt (nextPc s) s r

/-- A result register after its instruction: register 0 is zero whatever was written. -/
theorem readReg_writeBack (i : RegIdx) (v : Word) (s : State) (r : RegIdx) :
    readReg (writeBack i v s) r = if r = 0#5 then 0#32 else if r = i then v else readReg s r := by
  rw [writeBack, readReg_complete, readReg_writeReg]

/-- A store leaves every register but register 0. -/
theorem readReg_storeBack (a v : Word) (s : State) (r : RegIdx) :
    readReg (storeBack a v s) r = if r = 0#5 then 0#32 else readReg s r :=
  readReg_complete { s with mem := s.mem.writeWord a v } r

/-- After reset every register reads zero (R24). -/
theorem readReg_resetWith (base : Word) (image : Memory) (input : List Line) (r : RegIdx) :
    readReg (State.resetWith base image input) r = 0#32 := by
  simp [readReg, State.resetWith]

end Sys2Proof.Machine
end

