-- ==== Sys2Proof/Laws/Operations.lean ====
section
/-! SUPPORT. One lemma per shared operation that says everything it does, in the terms of Safety.lean. -/

namespace Sys2Proof.Machine

open Sys2Proof.Safety

/-- `writeBack`: the shape of R90 and R104. -/
theorem writeBack_spec (i : RegIdx) (v : Word) (s : State) : WritesRegister s (writeBack i v s) i v :=
  ⟨rfl, readReg_writeBack i v s, fun _ => rfl, ⟨rfl, rfl, rfl⟩, rfl⟩

/-- `completeAt`: the shape of a branch or jump. -/
theorem completeAt_spec (target : Word) (s : State) : SetsPc s (completeAt target s) target :=
  ⟨rfl, readReg_completeAt target s, fun _ => rfl, ⟨rfl, rfl, rfl⟩, rfl⟩

/-- `storeBack`: one word of memory, and what it leaves. -/
theorem storeBack_spec (a v : Word) (s : State) :
    (storeBack a v s).mem = s.mem.writeWord a v ∧ (storeBack a v s).pc = s.pc + 4#32 ∧
      RegsKept s (storeBack a v s) ∧ ConsoleSame s (storeBack a v s) ∧ (storeBack a v s).runState = s.runState :=
  ⟨rfl, rfl, readReg_storeBack a v s, ⟨rfl, rfl, rfl⟩, rfl⟩

/-- `halt`: the run state and the message, nothing else (R80). -/
theorem halt_spec (reason : HaltReason) (s : State) :
    (halt reason s).runState = .halted reason ∧ (halt reason s).out = s.out ++ haltMessage reason ∧
      (halt reason s).errors = s.errors ∧ MachineSame s (halt reason s) :=
  ⟨rfl, rfl, rfl, rfl, fun _ => rfl, fun _ => rfl, rfl⟩

/-- `raiseFatal`: the run state and the report, nothing else (R159). -/
theorem raiseFatal_spec (kind : FatalKind) (code : Int) (s : State) :
    (raiseFatal kind code s).runState = .fatal kind code s.pc ∧
      (raiseFatal kind code s).errors = s.errors ++ [.fatal kind code s.pc] ∧
      (raiseFatal kind code s).out = s.out ∧ MachineSame s (raiseFatal kind code s) :=
  ⟨rfl, rfl, rfl, rfl, fun _ => rfl, fun _ => rfl, rfl⟩

/-- The byte at offset 0 of an address is at the address. -/
@[simp] theorem byteAddr_zero (a : Word) : byteAddr a 0 = a := BitVec.add_zero a

/-- A word read as the number its four bytes make, most significant first (R33). -/
theorem joinBytes_toNat (b0 b1 b2 b3 : Byte) : (joinBytes b0 b1 b2 b3).toNat =
    b0.toNat * 2 ^ 24 + b1.toNat * 2 ^ 16 + b2.toNat * 2 ^ 8 + b3.toNat := by
  have h : (joinBytes b0 b1 b2 b3).toNat =
      ((b0.toNat * 2 ^ 8 + b1.toNat) * 2 ^ 8 + b2.toNat) * 2 ^ 8 + b3.toNat := by
    simp only [← append_toNat]; rfl
  rw [h]; omega

/-- One byte of a word as a number (R34). -/
theorem byteOfWord_toNat (v : Word) (k : Nat) :
    (byteOfWord v k).toNat = v.toNat / 2 ^ (8 * (3 - k)) % 256 := by
  simp [byteOfWord, Nat.shiftRight_eq_div_pow]

/-- A word is its four bytes joined. -/
theorem joinBytes_byteOfWord (v : Word) :
    joinBytes (byteOfWord v 0) (byteOfWord v 1) (byteOfWord v 2) (byteOfWord v 3) = v := by
  refine BitVec.eq_of_toNat_eq ?_
  have := v.isLt
  rw [joinBytes_toNat]
  simp only [byteOfWord_toNat]
  omega

/-- The four addresses of a word are different. -/
theorem byteAddr_ne (a : Word) {j k : Nat} (hj : j < 4) (hk : k < 4) (h : j ≠ k) : byteAddr a j ≠ byteAddr a k := by
  intro e
  have e' : BitVec.ofNat 32 j = BitVec.ofNat 32 k := (BitVec.add_right_inj a).mp e
  have := congrArg BitVec.toNat e'
  simp only [BitVec.toNat_ofNat] at this
  omega

/-- A byte read after a word write: which of the four bytes, or as before (R34). -/
theorem readByte_writeWord (m : Memory) (a v c : Word) : (m.writeWord a v).readByte c =
    if c = byteAddr a 3 then byteOfWord v 3 else if c = byteAddr a 2 then byteOfWord v 2
    else if c = byteAddr a 1 then byteOfWord v 1 else if c = byteAddr a 0 then byteOfWord v 0
    else m.readByte c := by
  simp only [Memory.writeWord, readByte_writeByte]

/-- The string read, one byte at a time (R35). -/
theorem readCStringWithin_succ (m : Memory) (n : Nat) (a : Word) : m.readCStringWithin (n + 1) a =
    if m.readByte a = 0#8 then some []
    else (m.readCStringWithin n (byteAddr a 1)).map (m.readByte a :: ·) := rfl

/-- TRAP's answers, by code: everything the handler can do (R131). -/
theorem execTrap_cases (s : State) :
    (trapCode s = 1 ∧ execTrap s = .next (complete (consoleOut (formatDec (readReg s Config.trapArgReg)) s))) ∨
    (trapCode s = 4 ∧ ∃ bytes, s.mem.readCString (readReg s Config.trapArgReg) = some bytes ∧
      execTrap s = .next (complete (consoleOut bytes s))) ∨
    (trapCode s = 4 ∧ s.mem.readCString (readReg s Config.trapArgReg) = none ∧
      execTrap s = .fault .unterminatedString) ∨
    (trapCode s = 5 ∧ ∃ v, parseInt (nextLine s) = some v ∧
      execTrap s = .next (writeBack Config.trapCodeReg v (dropLine s))) ∨
    (trapCode s = 5 ∧ parseInt (nextLine s) = none ∧ execTrap s =
      .next (writeBack Config.trapCodeReg 0#32 (reportError (.inputParseError (nextLine s)) (dropLine s)))) ∨
    (trapCode s = 10 ∧ execTrap s = .next (halt .exitTrap s)) ∨
    (trapCode s ∉ [1, 4, 5, 10] ∧ execTrap s = .next (raiseFatal .unknownTrap (trapCode s) s)) := by
  by_cases h1 : trapCode s = 1
  · have hx : execTrap s = trapPrintInt s := by simp [execTrap, trapHandler, h1]
    exact .inl ⟨h1, hx⟩
  by_cases h4 : trapCode s = 4
  · have hx : execTrap s = trapPrintString s := by simp [execTrap, trapHandler, h4]
    cases hr : s.mem.readCString (readReg s Config.trapArgReg) with
    | none => exact .inr (.inr (.inl ⟨h4, rfl, by simp [hx, trapPrintString, hr]⟩))
    | some bytes => exact .inr (.inl ⟨h4, bytes, rfl, by simp [hx, trapPrintString, hr]⟩)
  by_cases h5 : trapCode s = 5
  · have hx : execTrap s = trapReadInt s := by simp [execTrap, trapHandler, h5]
    cases hp : parseInt (nextLine s) with
    | none => exact .inr (.inr (.inr (.inr (.inl ⟨h5, rfl, by simp [hx, trapReadInt, hp]⟩))))
    | some v => exact .inr (.inr (.inr (.inl ⟨h5, v, rfl, by simp [hx, trapReadInt, hp]⟩)))
  by_cases h10 : trapCode s = 10
  · have hx : execTrap s = trapExit s := by simp [execTrap, trapHandler, h10]
    exact .inr (.inr (.inr (.inr (.inr (.inl ⟨h10, hx⟩)))))
  · have hx : execTrap s = trapUnknown s := by simp [execTrap, trapHandler, h1, h4, h5, h10]
    exact .inr (.inr (.inr (.inr (.inr (.inr ⟨by simp [h1, h4, h5, h10], hx⟩)))))

end Sys2Proof.Machine
end

