-- ==== Sys2Proof/Laws/PerInstr.lean ====
section
/-! SUPPORT. Per instruction: its encoding lies in its row of the opcode map (R57, R68). -/

namespace Sys2Proof.Laws

/-- Every row of the opcode map with the instruction's operation matches the instruction's word. -/
def EncodeMatchesRow.Statement (i : Instr) : Prop :=
  ∀ row ∈ opcodeRows, row.operation = i.operation → encode i &&& row.mask = row.pattern

/-- Masking a joined word masks its parts. -/
theorem append_and_append {m n : Nat} (x x' : BitVec m) (y y' : BitVec n) :
    (x ++ y) &&& (x' ++ y') = (x &&& x') ++ (y &&& y') := by
  ext i hi
  simp only [BitVec.getElem_and, BitVec.getElem_append]
  split <;> rfl

/-- A mask of ones keeps a field of six bits. -/
theorem and_ones6 (x : BitVec 6) : x &&& 63#6 = x := by
  rw [show (63#6 : BitVec 6) = BitVec.allOnes 6 from rfl, BitVec.and_allOnes]

/-- The mask of a format R row keeps the opcode and the function. -/
theorem encR_and_mask (funct : BitVec 6) (rs rt rd : RegIdx) (shamt : BitVec 5) :
    encR funct rs rt rd shamt &&& 0xFC00003F#32 = encR funct 0#5 0#5 0#5 0#5 := by
  have h : encR funct rs rt rd shamt &&& (63#6 ++ 0#5 ++ 0#5 ++ 0#5 ++ 0#5 ++ 63#6) =
      (0#6 &&& 63#6) ++ (rs &&& 0#5) ++ (rt &&& 0#5) ++ (rd &&& 0#5) ++ (shamt &&& 0#5) ++ (funct &&& 63#6) := by
    simp only [← append_and_append]; rfl
  rw [and_ones6, and_ones6, BitVec.and_zero, BitVec.and_zero, BitVec.and_zero, BitVec.and_zero] at h
  exact h

/-- The mask of a format I row keeps the opcode. -/
theorem encI_and_mask (opcode : BitVec 6) (rs rt : RegIdx) (imm : BitVec 16) :
    encI opcode rs rt imm &&& 0xFC000000#32 = encI opcode 0#5 0#5 0#16 := by
  have h : encI opcode rs rt imm &&& (63#6 ++ 0#5 ++ 0#5 ++ 0#16) =
      (opcode &&& 63#6) ++ (rs &&& 0#5) ++ (rt &&& 0#5) ++ (imm &&& 0#16) := by
    simp only [← append_and_append]; rfl
  rw [and_ones6, BitVec.and_zero, BitVec.and_zero, BitVec.and_zero] at h
  exact h

/-- The mask of the format J row keeps the opcode. -/
theorem encJ_and_mask (target : BitVec 26) : encJ target &&& 0xFC000000#32 = 0x08000000#32 := by
  have h : encJ target &&& (63#6 ++ 0#26) = (2#6 &&& 63#6) ++ (target &&& 0#26) := by
    rw [← append_and_append]; rfl
  rw [and_ones6, BitVec.and_zero] at h
  exact h

/-- The one row of an operation (`h` is checked by running through the map). -/
theorem matchesRow_of_row {i : Instr} {p m : Word}
    (h : ∀ row ∈ opcodeRows, row.operation = i.operation → row.pattern = p ∧ row.mask = m)
    (he : encode i &&& m = p) : EncodeMatchesRow.Statement i := by
  intro row hrow hop
  rw [(h row hrow hop).1, (h row hrow hop).2, he]

theorem EncodeMatchesRow.add (rs rt rd : RegIdx) (shamt : BitVec 5) :
    EncodeMatchesRow.Statement (.add rs rt rd shamt) :=
  matchesRow_of_row (p := 0x00000020#32) (m := 0xFC00003F#32) (by simp [opcodeRows, Instr.operation])
    (encR_and_mask 32#6 rs rt rd shamt)

theorem EncodeMatchesRow.sub (rs rt rd : RegIdx) (shamt : BitVec 5) :
    EncodeMatchesRow.Statement (.sub rs rt rd shamt) :=
  matchesRow_of_row (p := 0x00000022#32) (m := 0xFC00003F#32) (by simp [opcodeRows, Instr.operation])
    (encR_and_mask 34#6 rs rt rd shamt)

theorem EncodeMatchesRow.and (rs rt rd : RegIdx) (shamt : BitVec 5) :
    EncodeMatchesRow.Statement (.and rs rt rd shamt) :=
  matchesRow_of_row (p := 0x00000024#32) (m := 0xFC00003F#32) (by simp [opcodeRows, Instr.operation])
    (encR_and_mask 36#6 rs rt rd shamt)

theorem EncodeMatchesRow.or (rs rt rd : RegIdx) (shamt : BitVec 5) :
    EncodeMatchesRow.Statement (.or rs rt rd shamt) :=
  matchesRow_of_row (p := 0x00000025#32) (m := 0xFC00003F#32) (by simp [opcodeRows, Instr.operation])
    (encR_and_mask 37#6 rs rt rd shamt)

theorem EncodeMatchesRow.slt (rs rt rd : RegIdx) (shamt : BitVec 5) :
    EncodeMatchesRow.Statement (.slt rs rt rd shamt) :=
  matchesRow_of_row (p := 0x0000002A#32) (m := 0xFC00003F#32) (by simp [opcodeRows, Instr.operation])
    (encR_and_mask 42#6 rs rt rd shamt)

theorem EncodeMatchesRow.trap (rs rt rd : RegIdx) (shamt : BitVec 5) :
    EncodeMatchesRow.Statement (.trap rs rt rd shamt) :=
  matchesRow_of_row (p := 0x0000000C#32) (m := 0xFC00003F#32) (by simp [opcodeRows, Instr.operation])
    (encR_and_mask 12#6 rs rt rd shamt)

theorem EncodeMatchesRow.addiu (rs rt : RegIdx) (imm : BitVec 16) :
    EncodeMatchesRow.Statement (.addiu rs rt imm) :=
  matchesRow_of_row (p := 0x24000000#32) (m := 0xFC000000#32) (by simp [opcodeRows, Instr.operation])
    (encI_and_mask 9#6 rs rt imm)

theorem EncodeMatchesRow.andi (rs rt : RegIdx) (imm : BitVec 16) :
    EncodeMatchesRow.Statement (.andi rs rt imm) :=
  matchesRow_of_row (p := 0x30000000#32) (m := 0xFC000000#32) (by simp [opcodeRows, Instr.operation])
    (encI_and_mask 12#6 rs rt imm)

theorem EncodeMatchesRow.ori (rs rt : RegIdx) (imm : BitVec 16) :
    EncodeMatchesRow.Statement (.ori rs rt imm) :=
  matchesRow_of_row (p := 0x34000000#32) (m := 0xFC000000#32) (by simp [opcodeRows, Instr.operation])
    (encI_and_mask 13#6 rs rt imm)

theorem EncodeMatchesRow.lui (rs rt : RegIdx) (imm : BitVec 16) :
    EncodeMatchesRow.Statement (.lui rs rt imm) :=
  matchesRow_of_row (p := 0x3C000000#32) (m := 0xFC000000#32) (by simp [opcodeRows, Instr.operation])
    (encI_and_mask 15#6 rs rt imm)

theorem EncodeMatchesRow.lw (rs rt : RegIdx) (imm : BitVec 16) :
    EncodeMatchesRow.Statement (.lw rs rt imm) :=
  matchesRow_of_row (p := 0x8C000000#32) (m := 0xFC000000#32) (by simp [opcodeRows, Instr.operation])
    (encI_and_mask 35#6 rs rt imm)

theorem EncodeMatchesRow.sw (rs rt : RegIdx) (imm : BitVec 16) :
    EncodeMatchesRow.Statement (.sw rs rt imm) :=
  matchesRow_of_row (p := 0xAC000000#32) (m := 0xFC000000#32) (by simp [opcodeRows, Instr.operation])
    (encI_and_mask 43#6 rs rt imm)

theorem EncodeMatchesRow.beq (rs rt : RegIdx) (imm : BitVec 16) :
    EncodeMatchesRow.Statement (.beq rs rt imm) :=
  matchesRow_of_row (p := 0x10000000#32) (m := 0xFC000000#32) (by simp [opcodeRows, Instr.operation])
    (encI_and_mask 4#6 rs rt imm)

theorem EncodeMatchesRow.bne (rs rt : RegIdx) (imm : BitVec 16) :
    EncodeMatchesRow.Statement (.bne rs rt imm) :=
  matchesRow_of_row (p := 0x14000000#32) (m := 0xFC000000#32) (by simp [opcodeRows, Instr.operation])
    (encI_and_mask 5#6 rs rt imm)

theorem EncodeMatchesRow.j (target : BitVec 26) : EncodeMatchesRow.Statement (.j target) :=
  matchesRow_of_row (p := 0x08000000#32) (m := 0xFC000000#32) (by simp [opcodeRows, Instr.operation])
    (encJ_and_mask target)

end Sys2Proof.Laws
end

