-- ==== Sys2Proof/Laws/Step.lean ====
section
/-! SUPPORT. What a step and an executed instruction can answer, said once. -/

namespace Sys2Proof.Machine

open Sys2Proof.Safety

/-- A step of a machine that is not running answers the same state (R88, log 7). -/
theorem step_of_ended (s : State) (h : s.runState ≠ .running) : step s = .next s := by
  cases hr : s.runState with
  | running => exact absurd hr h
  | halted _ => simp [step, stepState, hr]
  | fatal _ _ _ => simp [step, stepState, hr]

/-- A step of a running machine is the step algorithm (R81). -/
theorem step_of_running (s : State) (h : s.runState = .running) : step s = runCycle s := by
  simp [step, stepState, h]

/-- The sentinel does not decode (R62). -/
theorem decode_zero : decode 0#32 = .error (.unknownFunction 0#6) := by decide

/-- Everything a step can answer (R81, R88). -/
theorem step_cases (s : State) :
    (s.runState ≠ .running ∧ step s = .next s) ∨
    (s.runState = .running ∧ fetchWord s = 0#32 ∧ step s = .next (halt .fellOffEnd s)) ∨
    (s.runState = .running ∧ fetchWord s ≠ 0#32 ∧ ∃ e, decode (fetchWord s) = .error e ∧
      step s = .next (raiseFatal (decodeErrorKind e) (decodeErrorCode e) s)) ∨
    (s.runState = .running ∧ fetchWord s ≠ 0#32 ∧ ∃ i, decode (fetchWord s) = .ok i ∧ step s = exec i s) := by
  by_cases hr : s.runState = .running
  · rw [step_of_running s hr]
    by_cases hw : fetchWord s = 0#32
    · exact .inr (.inl ⟨hr, hw, by simp [runCycle, hw]⟩)
    · cases hd : decode (fetchWord s) with
      | ok i => exact .inr (.inr (.inr ⟨hr, hw, i, rfl, by simp [runCycle, hw, runWord, hd]⟩))
      | error e => exact .inr (.inr (.inl ⟨hr, hw, e, rfl, by simp [runCycle, hw, runWord, hd]⟩))
  · exact .inl ⟨hr, step_of_ended s hr⟩

/-- Everything an instruction other than TRAP can answer: it writes its destination, stores a word, or sets the pc
to a branch or jump target. -/
theorem exec_cases (i : Instr) (s : State) :
    (i.operation = .trap ∧ exec i s = execTrap s) ∨
    (i.operation ≠ .trap ∧ i.operation ≠ .sw ∧
      ∃ rd v, destination i s = some rd ∧ exec i s = .next (writeBack rd v s)) ∨
    (i.operation = .sw ∧ ∃ rs rt imm, i = .sw rs rt imm ∧
      exec i s = .next (storeBack (effectiveAddress s rs imm) (readReg s rt) s)) ∨
    (i.operation ≠ .trap ∧ i.operation ≠ .sw ∧ destination i s = none ∧
      ((∃ taken imm, exec i s = .next (branchOn taken imm s)) ∨
        ∃ target, exec i s = .next (completeAt (jumpTarget s target) s))) := by
  cases i with
  | trap rs rt rd shamt => exact .inl ⟨rfl, rfl⟩
  | add rs rt rd shamt => exact .inr (.inl ⟨nofun, nofun, _, _, rfl, rfl⟩)
  | sub rs rt rd shamt => exact .inr (.inl ⟨nofun, nofun, _, _, rfl, rfl⟩)
  | and rs rt rd shamt => exact .inr (.inl ⟨nofun, nofun, _, _, rfl, rfl⟩)
  | or rs rt rd shamt => exact .inr (.inl ⟨nofun, nofun, _, _, rfl, rfl⟩)
  | slt rs rt rd shamt => exact .inr (.inl ⟨nofun, nofun, _, _, rfl, rfl⟩)
  | addiu rs rt imm => exact .inr (.inl ⟨nofun, nofun, _, _, rfl, rfl⟩)
  | andi rs rt imm => exact .inr (.inl ⟨nofun, nofun, _, _, rfl, rfl⟩)
  | ori rs rt imm => exact .inr (.inl ⟨nofun, nofun, _, _, rfl, rfl⟩)
  | lui rs rt imm => exact .inr (.inl ⟨nofun, nofun, _, _, rfl, rfl⟩)
  | lw rs rt imm => exact .inr (.inl ⟨nofun, nofun, _, _, rfl, rfl⟩)
  | sw rs rt imm => exact .inr (.inr (.inl ⟨rfl, rs, rt, imm, rfl, rfl⟩))
  | beq rs rt imm => exact .inr (.inr (.inr ⟨nofun, nofun, rfl, .inl ⟨_, imm, rfl⟩⟩))
  | bne rs rt imm => exact .inr (.inr (.inr ⟨nofun, nofun, rfl, .inl ⟨_, imm, rfl⟩⟩))
  | j target => exact .inr (.inr (.inr ⟨nofun, nofun, rfl, .inr ⟨target, rfl⟩⟩))

end Sys2Proof.Machine
end

