-- ==== Sys2Proof/WellFormed.lean ====
section
/-! DEFINITION. Well-formedness checks. The ranges of an instruction's fields are in their types (R51), so
no term is out of range. What is left to check: whether an instruction is in the form the syntax table of
R66 writes, and the two requirements the spec puts on parameters (R5, R132). -/

namespace Sys2Proof

/-- A format R computing instruction is written with shamt = 0 (R66). -/
def plainShamt (shamt : BitVec 5) : Bool := shamt == 0#5

/-- TRAP is written as the canonical word: bits 25:6 all zero (R66, R130). -/
def plainTrap (rs rt rd : RegIdx) (shamt : BitVec 5) : Bool :=
  rs == 0#5 && rt == 0#5 && rd == 0#5 && shamt == 0#5

/-- LUI is written with rs = 0 (R66). -/
def plainLui (rs : RegIdx) : Bool := rs == 0#5

/-- The instruction is in the form R66's syntax table writes: "Unused fields are written as zero by this
encoding". The hardware runs the other forms the same way (R57): no meaning looks at this check, and the
statements about meanings, encoding and decoding hold with and without it (log 22). -/
def Instr.wellFormed (i : Instr) : Bool :=
  match i with
  | .add _ _ _ shamt => plainShamt shamt
  | .sub _ _ _ shamt => plainShamt shamt
  | .and _ _ _ shamt => plainShamt shamt
  | .or _ _ _ shamt => plainShamt shamt
  | .slt _ _ _ shamt => plainShamt shamt
  | .trap rs rt rd shamt => plainTrap rs rt rd shamt
  | .addiu _ _ _ => true
  | .andi _ _ _ => true
  | .ori _ _ _ => true
  | .lui rs _ _ => plainLui rs
  | .lw _ _ _ => true
  | .sw _ _ _ => true
  | .beq _ _ _ => true
  | .bne _ _ _ => true
  | .j _ => true

/-- `TEXT_BASE` "must be a multiple of 4" (R5, R16, D22). -/
def wellFormedTextBase (base : Word) : Bool := base.toNat % 4 == 0

/-- The trap registers "must differ from each other and from 0" (R132). -/
def wellFormedTrapRegs (code arg : RegIdx) : Bool := code != 0#5 && arg != 0#5 && code != arg

end Sys2Proof
end

