-- ==== Sys2Proof/Tests/Slice0.lean ====
section
/-! SUPPORT. Named tests, their expected results taken from spec/95_test_vectors.md (V and E numbers) or from the
formats and tables of spec/30_encoding.md, and one witness for each statement that has hypotheses. -/

namespace Sys2Proof.Tests

open Sys2Proof.Machine Sys2Proof.Safety

/-! ### Helpers -/

/-- The state after one step; the state itself where the step stops. -/
def after (s : State) : State :=
  match step s with
  | .next t => t
  | .fault _ => s
  | .refused _ => s

/-- The state after one executed instruction; the state itself where it stops. -/
def afterExec (i : Instr) (s : State) : State :=
  match exec i s with
  | .next t => t
  | .fault _ => s
  | .refused _ => s

/-- The outcome is a next state. -/
def isNext (o : Host.Outcome State Fault Refusal) : Bool :=
  match o with
  | .next _ => true
  | .fault _ => false
  | .refused _ => false

theorem step_after (s : State) (h : isNext (step s) = true) : step s = .next (after s) := by
  unfold after
  cases hs : step s <;> simp_all [isNext]

theorem exec_afterExec (i : Instr) (s : State) (h : isNext (exec i s) = true) :
    exec i s = .next (afterExec i s) := by
  unfold afterExec
  cases hs : exec i s <;> simp_all [isNext]

/-- The state after reset with some registers set. -/
def withRegs (regs : List (RegIdx × Word)) : State :=
  regs.foldl (fun s p => writeReg p.1 p.2 s) State.reset

/-- That state with a word as its next instruction, at the text base. -/
def setup (regs : List (RegIdx × Word)) (w : Nat) : State := (withRegs regs).withFetchWord 32 w

/-- The same at another pc. -/
def setupAt (pc : Word) (regs : List (RegIdx × Word)) (w : Nat) : State :=
  State.withFetchWord { withRegs regs with pc := pc } 32 w

/-- The same with words stored in memory before. -/
def setupMem (cells : List (Word × Word)) (regs : List (RegIdx × Word)) (w : Nat) : State :=
  State.withFetchWord
    { withRegs regs with mem := cells.foldl (fun m c => Memory.writeWord m c.1 c.2) [] } 32 w

/-- The same with console input. -/
def setupInput (input : List Line) (regs : List (RegIdx × Word)) (w : Nat) : State :=
  { setup regs w with input := input }

/-- What a computing instruction's step leaves in a register, in pc and in the run state. -/
def result (r : RegIdx) (s : State) : Word × Word × RunState :=
  (readReg (after s) r, (after s).pc, (after s).runState)

/-- ASCII bytes. -/
def ascii (s : List Nat) : List Byte := s.map (BitVec.ofNat 8)

/-! ### WellFormed refuses (R66, R16, R132) -/

theorem test_wf_accepts : (Instr.add 2#5 3#5 4#5 0#5).wellFormed = true ∧ (Instr.trap 0#5 0#5 0#5 0#5).wellFormed = true ∧
    (Instr.lui 0#5 8#5 0x1001#16).wellFormed = true := by decide
theorem test_wf_refuses_add_shamt : (Instr.add 2#5 3#5 4#5 31#5).wellFormed = false := by decide
theorem test_wf_refuses_sub_shamt : (Instr.sub 2#5 3#5 4#5 1#5).wellFormed = false := by decide
theorem test_wf_refuses_and_shamt : (Instr.and 2#5 3#5 4#5 1#5).wellFormed = false := by decide
theorem test_wf_refuses_or_shamt : (Instr.or 2#5 3#5 4#5 1#5).wellFormed = false := by decide
theorem test_wf_refuses_slt_shamt : (Instr.slt 2#5 3#5 4#5 31#5).wellFormed = false := by decide
theorem test_wf_refuses_trap_fields : (Instr.trap 1#5 0#5 0#5 0#5).wellFormed = false ∧
    (Instr.trap 0#5 1#5 0#5 0#5).wellFormed = false ∧ (Instr.trap 0#5 0#5 1#5 0#5).wellFormed = false ∧
    (Instr.trap 0#5 0#5 0#5 1#5).wellFormed = false := by decide
theorem test_wf_refuses_lui_rs : (Instr.lui 31#5 8#5 0x1001#16).wellFormed = false := by decide
theorem test_wf_text_base : wellFormedTextBase Config.textBase = true ∧ wellFormedTextBase 0x00400002#32 = false := by
  decide
theorem test_wf_trap_regs : wellFormedTrapRegs Config.trapCodeReg Config.trapArgReg = true ∧
    wellFormedTrapRegs 0#5 4#5 = false ∧ wellFormedTrapRegs 2#5 0#5 = false ∧ wellFormedTrapRegs 2#5 2#5 = false := by
  decide

/-! ### Decoding words written out bit by bit (R52, R54, R55; V1) -/

theorem test_decode_add : decode 0b000000_00010_00011_00100_00000_100000#32 = .ok (.add 2#5 3#5 4#5 0#5) ∧
    decode 0b000000_00010_00011_00100_11111_100000#32 = .ok (.add 2#5 3#5 4#5 31#5) := ⟨rfl, rfl⟩
theorem test_decode_sub : decode 0b000000_00010_00011_00100_00000_100010#32 = .ok (.sub 2#5 3#5 4#5 0#5) := rfl
theorem test_decode_and : decode 0b000000_00010_00011_00100_00000_100100#32 = .ok (.and 2#5 3#5 4#5 0#5) := rfl
theorem test_decode_or : decode 0b000000_00010_00011_00100_00000_100101#32 = .ok (.or 2#5 3#5 4#5 0#5) := rfl
theorem test_decode_slt : decode 0b000000_00010_00011_00100_00000_101010#32 = .ok (.slt 2#5 3#5 4#5 0#5) := rfl
theorem test_decode_trap : decode 0b000000_00000_00000_00000_00000_001100#32 = .ok (.trap 0#5 0#5 0#5 0#5) ∧
    decode 0b000000_11111_11111_11111_11111_001100#32 = .ok (.trap 31#5 31#5 31#5 31#5) := ⟨rfl, rfl⟩
theorem test_decode_addiu : decode 0b001001_00000_00010_0000000000000101#32 = .ok (.addiu 0#5 2#5 5#16) ∧
    decode 0b001001_01001_01001_1111111111111111#32 = .ok (.addiu 9#5 9#5 0xFFFF#16) := ⟨rfl, rfl⟩
theorem test_decode_andi : decode 0b001100_01000_10000_1111000011110000#32 = .ok (.andi 8#5 16#5 0xF0F0#16) := rfl
theorem test_decode_ori : decode 0b001101_00000_01111_1111111111111111#32 = .ok (.ori 0#5 15#5 0xFFFF#16) := rfl
theorem test_decode_lui : decode 0b001111_00000_01000_0001000000000001#32 = .ok (.lui 0#5 8#5 0x1001#16) ∧
    decode 0b001111_11111_01000_0001000000000001#32 = .ok (.lui 31#5 8#5 0x1001#16) := ⟨rfl, rfl⟩
theorem test_decode_lw : decode 0b100011_01000_01001_1111111111111100#32 = .ok (.lw 8#5 9#5 0xFFFC#16) := rfl
theorem test_decode_sw : decode 0b101011_01000_01001_0000000000001000#32 = .ok (.sw 8#5 9#5 8#16) := rfl
theorem test_decode_beq : decode 0b000100_00000_00000_1111111111111111#32 = .ok (.beq 0#5 0#5 0xFFFF#16) := rfl
theorem test_decode_bne : decode 0b000101_01001_00000_1111111111111011#32 = .ok (.bne 9#5 0#5 0xFFFB#16) := rfl
theorem test_decode_j : decode 0b000010_00000100000000000000000110#32 = .ok (.j 0x0100006#26) ∧
    decode 0b000010_11111111111111111111111111#32 = .ok (.j 0x3FFFFFF#26) := ⟨rfl, rfl⟩
/-- V1.21 to V1.31. -/
theorem test_decode_errors : decode 0x20090005#32 = .error (.unknownOpcode 8#6) ∧
    decode 0x00084880#32 = .error (.unknownFunction 0#6) ∧ decode 0x00000040#32 = .error (.unknownFunction 0#6) ∧
    decode 0x00000000#32 = .error (.unknownFunction 0#6) ∧ decode 0xFFFFFFFF#32 = .error (.unknownOpcode 63#6) ∧
    decode 0x0000000D#32 = .error (.unknownFunction 13#6) ∧ decode 0x04000000#32 = .error (.unknownOpcode 1#6) ∧
    decode 0x0C100000#32 = .error (.unknownOpcode 3#6) ∧ decode 0x00000021#32 = .error (.unknownFunction 33#6) ∧
    decode 0x70000000#32 = .error (.unknownOpcode 28#6) ∧ decode 0x0000003F#32 = .error (.unknownFunction 63#6) :=
  ⟨rfl, rfl, rfl, rfl, rfl, rfl, rfl, rfl, rfl, rfl, rfl⟩
/-- The four bytes in memory order: the opcode is in the byte at the lowest address (R50). -/
theorem test_decode_bytes : decodeBytes 0x24#8 0x02#8 0x00#8 0x05#8 = .ok (.addiu 0#5 2#5 5#16) := rfl
theorem test_decode_table_word : decodeTableWord 32 0x24020005 = some (.addiu 0#5 2#5 5#16) ∧
    decodeTableWord 32 0x20090005 = none := ⟨rfl, rfl⟩
/-- V1.14, V1.8 and V1.20 as records. -/
theorem test_records : (Instr.lui 31#5 8#5 0x1001#16).toRecord = ⟨.lui, 31#5, 8#5, 0#5, 0#5, 0x1001#16, 0x3E81001#26⟩ ∧
    (Instr.add 2#5 3#5 4#5 31#5).toRecord = ⟨.add, 2#5, 3#5, 4#5, 31#5, 0#16, 0#26⟩ ∧
    (Instr.j 0x3FFFFFF#26).toRecord = ⟨.j, 31#5, 31#5, 0#5, 0#5, 0xFFFF#16, 0x3FFFFFF#26⟩ := by decide
/-- Words of R66: `SW $8,0($4)` and `BNE $9,$0,-5`. -/
theorem test_encode : encode (.sw 4#5 8#5 0#16) = 0xAC880000#32 ∧ encode (.bne 9#5 0#5 0xFFFB#16) = 0x1520FFFB#32 := by
  decide

/-! ### Register-register ALU (V2) -/

/-- V2.1. -/
theorem test_add_wraps : result 4#5 (setup [(2, 0x7FFFFFFF), (3, 1)] 0x00432020) =
    (0x80000000#32, 0x00400004#32, .running) := by decide
/-- V2.4. -/
theorem test_add_to_zero : result 0#5 (setup [(2, 5), (3, 7)] 0x00430020) = (0#32, 0x00400004#32, .running) := by decide
/-- V2.7. -/
theorem test_sub_wraps : result 4#5 (setup [(2, 0x80000000), (3, 1)] 0x00432022) =
    (0x7FFFFFFF#32, 0x00400004#32, .running) := by decide
/-- V2.6. -/
theorem test_sub_borrows : result 4#5 (setup [(2, 0), (3, 1)] 0x00432022) =
    (0xFFFFFFFF#32, 0x00400004#32, .running) := by decide
/-- V2.10. -/
theorem test_and : result 4#5 (setup [(2, 0xF0F0F0F0), (3, 0x0FF00FF0)] 0x00432024) =
    (0x00F000F0#32, 0x00400004#32, .running) := by decide
/-- V2.11. -/
theorem test_or : result 4#5 (setup [(2, 0xF0F0F0F0), (3, 0x0FF00FF0)] 0x00432025) =
    (0xFFF0FFF0#32, 0x00400004#32, .running) := by decide
/-- V2.14. -/
theorem test_slt_extremes : result 4#5 (setup [(2, 0x80000000), (3, 0x7FFFFFFF)] 0x0043202A) =
    (1#32, 0x00400004#32, .running) := by decide
/-- V2.13. -/
theorem test_slt_signed : result 4#5 (setup [(2, 1), (3, 0xFFFFFFFF)] 0x0043202A) =
    (0#32, 0x00400004#32, .running) := by decide

/-! ### Immediate ALU (V3) -/

/-- V3.2. -/
theorem test_addiu_sign_extends : result 4#5 (setup [(2, 0)] 0x24448000) =
    (0xFFFF8000#32, 0x00400004#32, .running) := by decide
/-- V3.4. -/
theorem test_addiu_wraps : result 4#5 (setup [(2, 0xFFFFFFFF)] 0x24447FFF) =
    (0x00007FFE#32, 0x00400004#32, .running) := by decide
/-- V3.7. -/
theorem test_andi_zero_extends : result 4#5 (setup [(2, 0xFFFFFFFF)] 0x30448000) =
    (0x00008000#32, 0x00400004#32, .running) := by decide
/-- V3.9. -/
theorem test_ori : result 4#5 (setup [(2, 0x12340000)] 0x3444FFFF) =
    (0x1234FFFF#32, 0x00400004#32, .running) := by decide
/-- V3.13. -/
theorem test_lui_clears_low_half : result 4#5 (setup [(4, 0x1234)] 0x3C04FFFF) =
    (0xFFFF0000#32, 0x00400004#32, .running) := by decide
/-- V3.14. -/
theorem test_lui_ignores_rs : result 4#5 (setup [(31, 0x55)] 0x3FE41001) =
    (0x10010000#32, 0x00400004#32, .running) := by decide

/-! ### Load and store (V4) -/

/-- V4.7. -/
theorem test_lw_misaligned : result 9#5 (setupMem [(0x100, 0x11223344), (0x104, 0x55667788)] [(8, 0x100)] 0x8D090001) =
    (0x22334455#32, 0x00400004#32, .running) := by decide
/-- V4.8. -/
theorem test_lw_wraps : result 9#5 (setupMem [(0xFFFFFFFC, 0x11223344), (0, 0x55667788)] [(8, 0xFFFFFFFE)] 0x8D090000) =
    (0x33445566#32, 0x00400004#32, .running) := by decide
/-- V4.11. -/
theorem test_sw_straddles :
    (after (setupMem [(0x100, 0x11111111), (0x104, 0x22222222)] [(8, 0x100), (9, 0xAABBCCDD)] 0xAD090002)).mem.readWord
      0x100#32 = 0x1111AABB#32 ∧
    (after (setupMem [(0x100, 0x11111111), (0x104, 0x22222222)] [(8, 0x100), (9, 0xAABBCCDD)] 0xAD090002)).mem.readWord
      0x104#32 = 0xCCDD2222#32 := by decide
/-- V4.12: the bytes of the one word that crosses the top of memory. -/
theorem test_sw_wraps :
    (after (setup [(8, 0xFFFFFFFE), (9, 0xAABBCCDD)] 0xAD090000)).mem.readByte 0xFFFFFFFF#32 = 0xBB#8 ∧
    (after (setup [(8, 0xFFFFFFFE), (9, 0xAABBCCDD)] 0xAD090000)).mem.readWord 0#32 = 0xCCDD0000#32 ∧
    (after (setup [(8, 0xFFFFFFFE), (9, 0xAABBCCDD)] 0xAD090000)).pc = 0x00400004#32 := by decide

/-! ### Branch and jump (V5) -/

/-- V5.7. -/
theorem test_beq_farthest_back : (after (setupAt 0x00400000 [] 0x10008000)).pc = 0x003E0004#32 := by decide
/-- V5.3. -/
theorem test_beq_not_taken : (after (setup [(2, 5), (3, 6)] 0x10430010)).pc = 0x00400004#32 := by decide
/-- V5.11. -/
theorem test_bne_taken : (after (setupAt 0x0040001C [(9, 2)] 0x1520FFFB)).pc = 0x0040000C#32 := by decide
/-- V5.12. -/
theorem test_bne_not_taken : (after (setupAt 0x0040001C [(9, 0)] 0x1520FFFB)).pc = 0x00400020#32 := by decide
/-- V5.17. -/
theorem test_j_keeps_its_region : (after (setupAt 0x9FFFFFFC [] 0x08000040)).pc = 0x90000100#32 := by decide
/-- V5.18. -/
theorem test_j_top_of_region : (after (setup [] 0x0BFFFFFF)).pc = 0x0FFFFFFC#32 := by decide

/-! ### TRAP (V6) -/

/-- V6.3: `-2147483648`. -/
theorem test_trap_print_int : (after (setup [(2, 1), (4, 0x80000000)] 0x0000000C)).out =
      ascii [0x2D, 0x32, 0x31, 0x34, 0x37, 0x34, 0x38, 0x33, 0x36, 0x34, 0x38] ∧
    (after (setup [(2, 1), (4, 0x80000000)] 0x0000000C)).pc = 0x00400004#32 := by decide
/-- V6.10: `ABC`, through address 0. -/
theorem test_trap_print_string :
    (after (setupMem [(0xFFFFFFFC, 0x00004142), (0, 0x43000000)] [(2, 4), (4, 0xFFFFFFFE)] 0x0000000C)).out =
      ascii [0x41, 0x42, 0x43] := by decide
/-- V6.13: `-42`. -/
theorem test_trap_read_int : result 2#5 (setupInput [ascii [0x2D, 0x34, 0x32], ascii [0x39]] [(2, 5)] 0x0000000C) =
      (0xFFFFFFD6#32, 0x00400004#32, .running) ∧
    (after (setupInput [ascii [0x2D, 0x34, 0x32], ascii [0x39]] [(2, 5)] 0x0000000C)).input = [ascii [0x39]] := by decide
/-- V6.16: `abc`. -/
theorem test_trap_read_failure :
    result 2#5 (setupInput [ascii [0x61, 0x62, 0x63], ascii [0x37]] [(2, 5)] 0x0000000C) =
      (0#32, 0x00400004#32, .running) ∧
    (after (setupInput [ascii [0x61, 0x62, 0x63], ascii [0x37]] [(2, 5)] 0x0000000C)).errors =
      [.inputParseError (some (ascii [0x61, 0x62, 0x63]))] := by decide
/-- V6.18: end of input. -/
theorem test_trap_read_end_of_input : result 2#5 (setup [(2, 5)] 0x0000000C) = (0#32, 0x00400004#32, .running) ∧
    (after (setup [(2, 5)] 0x0000000C)).errors = [.inputParseError none] := by decide
/-- V6.19. -/
theorem test_trap_exit : (after (setup [(2, 10), (4, 99)] 0x0000000C)).runState = .halted .exitTrap ∧
    (after (setup [(2, 10), (4, 99)] 0x0000000C)).pc = 0x00400000#32 ∧
    (after (setup [(2, 10), (4, 99)] 0x0000000C)).out = Config.msgExit := ⟨by decide, by decide, rfl⟩
/-- V6.22, V6.23. -/
theorem test_trap_unknown :
    (after (setup [(2, 0xFFFFFFFF)] 0x0000000C)).runState = .fatal .unknownTrap (-1) 0x00400000#32 ∧
    (after (setup [(2, 0x101)] 0x0000000C)).runState = .fatal .unknownTrap 257 0x00400000#32 := by decide

/-! ### Memory, console and the step -/

/-- V7.2, V7.3. -/
theorem test_memory_bytes : (Memory.writeWord [] 0x100#32 0x11223344#32).readWord 0x101#32 = 0x22334400#32 ∧
    (Memory.writeWord [] 0x100#32 0x11223344#32).readWord 0xFF#32 = 0x00112233#32 := by decide
/-- V7.6. -/
theorem test_memory_overlap : ((Memory.writeWord [] 0x200#32 0x01020304#32).writeWord 0x201#32 0xA0B0C0D0#32).readWord
    0x200#32 = 0x01A0B0C0#32 := by decide
/-- Writing zero removes the cell, so the canonical form is kept (R31). -/
theorem test_memory_zero_removes : (Memory.writeWord [] 0x200#32 0x01000000#32).writeByte 0x200#32 0#8 = [] := by decide
/-- V7.8, V7.7. -/
theorem test_string : (Memory.writeWord [] 0x200#32 0x48692100#32).readCString 0x200#32 = some (ascii [0x48, 0x69, 0x21]) ∧
    Memory.readCString [] 0x300#32 = some [] := by decide
/-- P2's and P7's data segment, after the loader's reversal. -/
theorem test_load_image : (loadImage 0x00400000#32 [0x24020005#32] 0x10010000#32 [0xA#32, 0x14#32]).readWord
      0x10010004#32 = 0x14#32 ∧
    (loadImage 0x00400000#32 [0x24020005#32] 0x10010000#32 [0xA#32, 0x14#32]).readWord 0x00400000#32 = 0x24020005#32 := by
  decide
/-- V6.5 and scenario 1: `0`, `12`. -/
theorem test_format_dec : formatDec 0#32 = ascii [0x30] ∧ formatDec 12#32 = ascii [0x31, 0x32] := by decide
/-- V6.14, and R143(b), (c). -/
theorem test_parse_int : parseInt (some (ascii [0x2D, 0x32, 0x31, 0x34, 0x37, 0x34, 0x38, 0x33, 0x36, 0x34, 0x38])) =
    some 0x80000000#32 ∧ parseInt none = none ∧ parseInt (some []) = none := by decide
/-- R140: `1` CR LF, LF, `2` with no line feed. -/
theorem test_lines : linesOfBytes (ascii [0x31, 0x0D, 0x0A, 0x0A, 0x32]) = [ascii [0x31], [], ascii [0x32]] := by decide
/-- V8.1, V8.2. -/
theorem test_sentinel : (after State.reset).runState = .halted .fellOffEnd ∧ (after State.reset).pc = 0x00400000#32 := by
  decide
/-- V8.3 at the failing step. -/
theorem test_unknown_opcode : (after (setupAt 0x00400004 [] 0x20090005)).runState =
    .fatal .unknownOpcode 8 0x00400004#32 := by decide
/-- V8.4 at the failing step. -/
theorem test_unknown_function : (after (setupAt 0x00400004 [] 0x00084880)).runState =
    .fatal .unknownFunction 0 0x00400004#32 := by decide
/-- R179: the exit trap and a run that has not ended. -/
theorem test_signals : terminationSignal (.halted .exitTrap) = some .exitSuccess ∧ terminationSignal .running = none := by
  decide

/-! ### Witnesses: states and operands that meet the hypotheses of each statement -/

/-- A memory in which each of the first `n` addresses holds a byte that is not zero. -/
def nonZeroBelow (n : Nat) : Memory := (List.range n).map fun k => (k, 1#8)

theorem readByte_ne_zero (ks : List Nat) (a : Word) (h : a.toNat ∈ ks) :
    Memory.readByte (ks.map fun k => (k, 1#8)) a = 1#8 := by
  induction ks with
  | nil => simp at h
  | cons k rest ih =>
    by_cases hk : k = a.toNat
    · simp [Memory.readByte, hk]
    · simp [Memory.readByte, hk, ih ((List.mem_cons.mp h).resolve_left (Ne.symm hk))]

theorem nonZeroBelow_ne_zero (n : Nat) (hn : n = 2 ^ 32) (a : Word) : (nonZeroBelow n).readByte a = 1#8 :=
  readByte_ne_zero _ a (List.mem_range.mpr (hn ▸ a.isLt))

theorem readCStringWithin_none (m : Memory) (h : ∀ a, m.readByte a ≠ 0#8) (n : Nat) (a : Word) :
    m.readCStringWithin n a = none := by
  induction n generalizing a with
  | zero => rfl
  | succ n ih => rw [readCStringWithin_succ, if_neg (h a), ih]; rfl

/-- A running machine with code 4 in the code register, at a TRAP word none of whose bytes is zero (V1.7), stored over
the memory `m`. -/
def endless (m : Memory) : State :=
  { withRegs [(2, 4)] with mem := m.writeWord Config.textBase 0x03FFFFCC#32 }

theorem endless_ne_zero (m : Memory) (h : ∀ a, m.readByte a = 1#8) (a : Word) : (endless m).mem.readByte a ≠ 0#8 := by
  show Memory.readByte (Memory.writeWord m Config.textBase 0x03FFFFCC#32) a ≠ 0#8
  rw [readByte_writeWord, h]
  split_ifs <;> decide

theorem fetchWord_endless (m : Memory) : fetchWord (endless m) = 0x03FFFFCC#32 := by
  show Memory.readWord (Memory.writeWord m Config.textBase 0x03FFFFCC#32) Config.textBase = _
  simp [Memory.readWord, readByte_writeWord, byteAddr, Config.textBase]
  decide

theorem trapCode_endless (m : Memory) : trapCode (endless m) = 4 := by
  show (readReg (withRegs [(2, 4)]) Config.trapCodeReg).toInt = 4
  decide

theorem execTrap_endless (m : Memory) (h : ∀ a, m.readByte a = 1#8) :
    execTrap (endless m) = .fault .unterminatedString := by
  have hr : (endless m).mem.readCString (readReg (endless m) Config.trapArgReg) = none :=
    readCStringWithin_none _ (endless_ne_zero m h) _ _
  simp [execTrap, trapHandler, trapCode_endless, trapPrintString, hr]

theorem step_endless (m : Memory) (h : ∀ a, m.readByte a = 1#8) :
    step (endless m) = .fault .unterminatedString := by
  have hd : decode 0x03FFFFCC#32 = .ok (.trap 31#5 31#5 31#5 31#5) := rfl
  have hr : (endless m).runState = .running := by
    show (withRegs [(2, 4)]).runState = .running
    decide
  rw [step_of_running _ hr, runCycle, fetchWord_endless,
    if_neg (by decide), runWord, hd]
  exact execTrap_endless m h

/-- ResetMeetsTheInvariant. -/
theorem witness_reset_invariant : Config.textBase.toNat % 4 = 0 ∧ Memory.wf [(0, 7#8), (0xFFFFFFFF, 1#8)] := by decide

/-- EveryStepKeepsTheInvariant: an ADD that overflows. -/
theorem witness_step_keeps_invariant : ∃ s t, Safety.Inv s ∧ step s = .next t :=
  ⟨setup [(2, 0x7FFFFFFF), (3, 1)] 0x00432020, _, by unfold Safety.Inv; decide, step_after _ (by decide)⟩

/-- RegisterZeroIsForcedToZero: from a state whose register 0 holds 5, a step and an instruction. -/
theorem witness_register_zero :
    (∃ s t, readReg s 0#5 = 5#32 ∧ s.runState = .running ∧ step s = .next t ∧ t.runState = .running) ∧
    ∃ i s t, Instr.operation i ≠ .trap ∧ exec i s = .next t :=
  ⟨⟨setup [(0, 5)] 0x00430020, _, by decide, by decide, step_after _ (by decide), by decide⟩,
   ⟨.add 2#5 3#5 0#5 0#5, withRegs [(2, 5), (3, 7)], _, by decide, exec_afterExec _ _ (by decide)⟩⟩

/-- WriteThenForceIsDiscard. -/
theorem witness_write_then_force : readReg (withRegs [(31, 1)]) 0#5 = 0#32 := by decide

/-- OnlyTheDestinationRegisterChanges: trap 5, and a register at each end of the range. -/
theorem witness_only_destination :
    (∃ s t, exec (.trap 0#5 0#5 0#5 0#5) s = .next t ∧ destination (.trap 0#5 0#5 0#5 0#5) s ≠ some 31#5) ∧
    ∃ s t, exec (.lw 8#5 8#5 0#16) s = .next t ∧ destination (.lw 8#5 8#5 0#16) s ≠ some 1#5 :=
  ⟨⟨withRegs [(2, 5)], _, exec_afterExec _ _ (by decide), by decide⟩,
   ⟨withRegs [(8, 0x100)], _, exec_afterExec _ _ (by decide), by decide⟩⟩

/-- OnlyTheSourceRegistersMatter: two states that differ in register 9, both clauses. -/
theorem witness_only_sources :
    (∃ s u t, SameButRegisters s u ∧ readReg s 9#5 ≠ readReg u 9#5 ∧
      (∀ r ∈ sources (.sw 8#5 4#5 0#16) s, readReg u r = readReg s r) ∧ exec (.sw 8#5 4#5 0#16) s = .next t) ∧
    ∃ s u f, SameButRegisters s u ∧
      (∀ r ∈ sources (.trap 0#5 0#5 0#5 0#5) s, readReg u r = readReg s r) ∧
      exec (.trap 0#5 0#5 0#5 0#5) s = .fault f :=
  ⟨⟨withRegs [(8, 1), (9, 2)], withRegs [(8, 1), (9, 3)], _, ⟨rfl, rfl, rfl, rfl, rfl, rfl⟩, by decide, by decide,
      exec_afterExec _ _ (by decide)⟩,
   ⟨endless (nonZeroBelow (2 ^ 32)), endless (nonZeroBelow (2 ^ 32)), _, ⟨rfl, rfl, rfl, rfl, rfl, rfl⟩, fun _ _ => rfl,
      execTrap_endless _ (nonZeroBelow_ne_zero _ rfl)⟩⟩

/-- OnlyStoreWordChangesMemory and OnlyTrapTouchesTheConsole. -/
theorem witness_neither_store_nor_trap :
    ∃ i s t, Instr.operation i ≠ .sw ∧ Instr.operation i ≠ .trap ∧ exec i s = .next t :=
  ⟨.beq 0#5 0#5 0xFFFF#16, State.reset, _, by decide, by decide, exec_afterExec _ _ (by decide)⟩

/-- ConsoleStreamsOnlyAdvance: a step that takes a line and reports it. -/
theorem witness_console_advances : ∃ s t, step s = .next t ∧ t.input ≠ s.input ∧ t.errors ≠ s.errors :=
  ⟨setupInput [ascii [0x61]] [(2, 5)] 0x0000000C, _, step_after _ (by decide), by decide, by decide⟩

/-- EncodeOfDecodeIsTheWord and DecodedFieldsAreTheWordsBits, a word of each class with every field full. -/
theorem witness_decodes :
    (∃ i, decode 0x03FFFFCC#32 = .ok i ∧ (0x03FFFFCC#32 : Word).toNat / 2 ^ 26 = 0) ∧
    ∃ i, decode 0x0BFFFFFF#32 = .ok i ∧ (0x0BFFFFFF#32 : Word).toNat / 2 ^ 26 ≠ 0 :=
  ⟨⟨_, rfl, by decide⟩, ⟨_, rfl, by decide⟩⟩

/-- IllegalWordsAreNamed: the least and the greatest opcode and function. -/
theorem witness_illegal_words :
    (0x04000000#32 : Word).toNat / 2 ^ 26 ∉ [0, 2, 4, 5, 9, 12, 13, 15, 35, 43] ∧
    (0xFFFFFFFF#32 : Word).toNat / 2 ^ 26 ∉ [0, 2, 4, 5, 9, 12, 13, 15, 35, 43] ∧
    ((0x00000040#32 : Word).toNat / 2 ^ 26 = 0 ∧ (0x00000040#32 : Word).toNat % 64 ∉ [12, 32, 34, 36, 37, 42]) ∧
    ((0x03FFFFFF#32 : Word).toNat / 2 ^ 26 = 0 ∧ (0x03FFFFFF#32 : Word).toNat % 64 ∉ [12, 32, 34, 36, 37, 42]) := by
  decide

/-- OpcodeRowsAgreeWithTheDecoder: the first and the last row. -/
theorem witness_opcode_rows : ⟨.add, 0x00000020#32, 0xFC00003F#32⟩ ∈ opcodeRows ∧
    ⟨.j, 0x08000000#32, 0xFC000000#32⟩ ∈ opcodeRows := by decide

/-- StepRunsTheDecodedInstruction: at the text base, and at the last address, where the word wraps. -/
theorem witness_step_runs : ∀ s ∈ [setup [] 0x00432020, setupAt 0xFFFFFFFE [] 0x00432020],
    s.runState = .running ∧
    decodeBytes (s.mem.readByte s.pc) (s.mem.readByte (s.pc + 1#32)) (s.mem.readByte (s.pc + 2#32))
      (s.mem.readByte (s.pc + 3#32)) = .ok (.add 2#5 3#5 4#5 0#5) := by
  intro s hs
  simp only [List.mem_cons, List.not_mem_nil, or_false] at hs
  rcases hs with rfl | rfl
  · exact ⟨by decide, rfl⟩
  · exact ⟨by decide, rfl⟩

/-- ZeroWordFallsOffTheEnd. -/
theorem witness_zero_word : State.reset.runState = .running ∧
    State.reset.mem.readByte State.reset.pc = 0#8 ∧ State.reset.mem.readByte (State.reset.pc + 1#32) = 0#8 ∧
    State.reset.mem.readByte (State.reset.pc + 2#32) = 0#8 ∧ State.reset.mem.readByte (State.reset.pc + 3#32) = 0#8 := by
  decide

/-- DecodeFailureIsFatal: both clauses, the second at a word that is zero but for one ignored bit. -/
theorem witness_decode_failure :
    ((setup [] 0x04000000).runState = .running ∧ fetchWord (setup [] 0x04000000) ≠ 0#32 ∧
      decode (fetchWord (setup [] 0x04000000)) = .error (.unknownOpcode 1#6)) ∧
    ((setup [] 0x00000040).runState = .running ∧ fetchWord (setup [] 0x00000040) ≠ 0#32 ∧
      decode (fetchWord (setup [] 0x00000040)) = .error (.unknownFunction 0#6)) :=
  ⟨⟨by decide, by decide, rfl⟩, ⟨by decide, by decide, rfl⟩⟩

/-- TerminalStatesAbsorb: the three kinds of terminal state. -/
theorem witness_terminal : (after State.reset).runState ≠ .running ∧
    (after (setup [(2, 10)] 0x0000000C)).runState ≠ .running ∧ (after (setup [] 0x04000000)).runState ≠ .running := by
  decide

/-- OnlyTheseEventsEndARun: every event. -/
theorem witness_events : ∀ s ∈ [State.reset, setup [] 0x04000000, setup [] 0x00000040, setup [(2, 10)] 0x0000000C,
    setup [(2, 0)] 0x0000000C],
    ∃ t, s.runState = .running ∧ step s = .next t ∧ t.runState ≠ .running := by
  intro s hs
  have h : isNext (step s) = true ∧ s.runState = .running ∧ (after s).runState ≠ .running := by
    revert s; decide
  exact ⟨after s, h.2.1, step_after s h.1, h.2.2⟩

/-- FatalErrorsArePrecise: the three kinds of fatal error. -/
theorem witness_fatal :
    (∃ t, step (setup [] 0x04000000) = .next t ∧ t.runState = .fatal .unknownOpcode 1 0x00400000#32) ∧
    (∃ t, step (setup [] 0x0000003F) = .next t ∧ t.runState = .fatal .unknownFunction 63 0x00400000#32) ∧
    ∃ t, step (setup [(2, 11)] 0x0000000C) = .next t ∧ t.runState = .fatal .unknownTrap 11 0x00400000#32 :=
  ⟨⟨_, step_after _ (by decide), by decide⟩, ⟨_, step_after _ (by decide), by decide⟩,
   ⟨_, step_after _ (by decide), by decide⟩⟩

/-- TheOnlyFaultIsTheEndlessString: one state and fault that meet both sides, the step and every condition. -/
theorem witness_only_fault : ∃ s f, step s = .fault f ∧
    (s.runState = .running ∧ (∃ i, decode (fetchWord s) = .ok i ∧ i.operation = .trap) ∧ trapCode s = 4 ∧
      (∀ a, s.mem.readByte a ≠ 0#8) ∧ f = .unterminatedString) :=
  ⟨endless (nonZeroBelow (2 ^ 32)), .unterminatedString, step_endless _ (nonZeroBelow_ne_zero _ rfl),
    show (withRegs [(2, 4)]).runState = .running by decide,
    ⟨.trap 31#5 31#5 31#5 31#5, by rw [fetchWord_endless]; rfl, rfl⟩, trapCode_endless _,
    endless_ne_zero _ (nonZeroBelow_ne_zero _ rfl), rfl⟩

/-- SupportedCodeStaysSafe: the zero word, a TRAP with a known code, and an instruction that is no TRAP. -/
theorem witness_stays_safe : ∀ s ∈ [State.reset, setup [(2, 10)] 0x0000000C, setup [] 0x00432020], ∃ t,
    Safe s ∧ step s = .next t ∧ (fetchWord s = 0#32 ∨
      ∃ i, decode (fetchWord s) = .ok i ∧ (i.operation = .trap → trapCode s ∈ [1, 4, 5, 10])) := by
  have safe : ∀ s : State, s.runState = .running → Safe s := by
    rintro s h ⟨kind, code, addr, hf⟩
    rw [h] at hf
    cases hf
  intro s hs
  simp only [List.mem_cons, List.not_mem_nil, or_false] at hs
  rcases hs with rfl | rfl | rfl
  · exact ⟨_, safe _ (by decide), step_after _ (by decide), .inl (by decide)⟩
  · exact ⟨_, safe _ (by decide), step_after _ (by decide), .inr ⟨.trap 0#5 0#5 0#5 0#5, rfl, fun _ => by decide⟩⟩
  · exact ⟨_, safe _ (by decide), step_after _ (by decide), .inr ⟨.add 2#5 3#5 4#5 0#5, rfl, by decide⟩⟩

/-- FetchSeesTheStore: a store at its own next instruction. -/
theorem witness_fetch_sees_store :
    ∃ s t, exec (.sw 8#5 9#5 4#16) s = .next t ∧ t.pc = effectiveAddress s 8#5 4#16 :=
  ⟨withRegs [(8, Config.textBase), (9, 0x24090063)], _, exec_afterExec _ _ (by decide), by decide⟩

/-- WordWriteLeavesOtherBytes: the bytes just before and just after a word that crosses the top of memory. -/
theorem witness_other_bytes : ∀ k : Nat, k < 4 →
    0xFFFFFFFD#32 ≠ 0xFFFFFFFE#32 + BitVec.ofNat 32 k ∧ 2#32 ≠ 0xFFFFFFFE#32 + BitVec.ofNat 32 k := by decide

/-- CanonicalMemoriesThatReadAlikeAreEqual: two memories written in different orders. -/
theorem witness_canonical :
    ∃ m n : Memory, m.wf ∧ n.wf ∧ m ≠ [] ∧ ∀ a, m.readByte a = n.readByte a :=
  ⟨(Memory.writeWord [] 0#32 1#32).writeWord 8#32 2#32, (Memory.writeWord [] 8#32 2#32).writeWord 0#32 1#32,
    by decide, by decide, by decide, fun _ => rfl⟩

/-- StringReadStopsAtTheFirstZeroByte: the right side of its second clause. -/
theorem witness_endless_string : ∃ m : Memory, ∀ b, m.readByte b ≠ 0#8 :=
  ⟨nonZeroBelow (2 ^ 32), fun b => by rw [nonZeroBelow_ne_zero _ rfl b]; decide⟩

/-- LoadedWordsAreAtTheirAddresses: a segment of two words, and the byte after it. -/
theorem witness_loaded_words : [1#32, 2#32].length ≤ 2 ^ 30 ∧
    ∀ k : Nat, k < 4 * [1#32, 2#32].length → 8#32 ≠ 0#32 + BitVec.ofNat 32 k := by decide

/-- TrapOnePrintsTheInteger, TrapTenExits. -/
theorem witness_trap_codes : (readReg (withRegs [(2, 1)]) Config.trapCodeReg).toInt = 1 ∧
    (readReg (withRegs [(2, 10)]) Config.trapCodeReg).toInt = 10 := by decide

/-- TrapFourPrintsTheString. -/
theorem witness_trap_four : ∃ s : State, (readReg s Config.trapCodeReg).toInt = 4 ∧ ∃ a, s.mem.readByte a = 0#8 :=
  ⟨withRegs [(2, 4)], by decide, 0#32, by decide⟩

/-- TrapFiveStoresTheParsedInteger: the least value. -/
theorem witness_trap_five_value :
    ∃ (s : State) (line : Line) (rest : List Line) (v : Word),
      (readReg s Config.trapCodeReg).toInt = 5 ∧ s.input = line :: rest ∧ parseInt (some line) = some v :=
  ⟨setupInput [formatDec 0x80000000#32] [(2, 5)] 0, formatDec 0x80000000#32, [], 0x80000000#32, by decide, by decide,
    by decide⟩

/-- TrapFiveSubstitutesZeroOnFailure: an empty line and end of input. -/
theorem witness_trap_five_failure :
    ((readReg (setupInput [[]] [(2, 5)] 0) Config.trapCodeReg).toInt = 5 ∧
      parseInt (setupInput [[]] [(2, 5)] 0).input.head? = none) ∧
    ((readReg (setup [(2, 5)] 0) Config.trapCodeReg).toInt = 5 ∧ parseInt (setup [(2, 5)] 0).input.head? = none) := by
  decide

/-- UnknownTrapCodeIsFatal: the values next to the known codes, a negative one and one equal to 1 in its low byte. -/
theorem witness_unknown_codes : [0#32, 2#32, 3#32, 6#32, 9#32, 11#32, 0x101#32, 0xFFFFFFFF#32].all (fun v =>
    decide ((readReg (withRegs [(2, v)]) Config.trapCodeReg).toInt ∉ [1, 4, 5, 10])) = true := by decide

/-- ParseIntMeetsItsContract: the bytes next to the digits. -/
theorem witness_no_digit : ∀ b ∈ ascii [0x2F, 0x3A, 0xFF], b.toNat < 0x30 ∨ 0x39 < b.toNat := by decide

/-- InputBytesSplitAtLineFeeds: a line that meets each clause. -/
theorem witness_lines : ascii [0x31] ≠ [] ∧ 0x0A#8 ∉ ascii [0x31] ∧ (ascii [0x31]).getLast? ≠ some 0x0D#8 := by decide

end Sys2Proof.Tests
end

section
/-! The decoder's record as the fields of the word (R51, R54 to R56): one inversion lemma per table of the decoder,
one for `decode`, and O17 from them and the numbers of the fields. -/

namespace Sys2Proof

/-- The operations of the register-register class with their function codes (R54). -/
def functionCodes : List (Operation × Nat) :=
  [(.add, 32), (.sub, 34), (.and, 36), (.or, 37), (.slt, 42), (.trap, 12)]

/-- The operations of the other class with their opcodes (R55). -/
def opcodeCodes : List (Operation × Nat) :=
  [(.addiu, 9), (.andi, 12), (.ori, 13), (.lui, 15), (.lw, 35), (.sw, 43), (.beq, 4), (.bne, 5), (.j, 2)]

/-- What the function table answers when it answers an instruction (R54). -/
theorem decodeFunct_ok {funct : BitVec 6} {rs rt rd : RegIdx} {shamt : BitVec 5} {i : Instr}
    (h : decodeFunct funct rs rt rd shamt = .ok i) :
    i.toRecord = recordR i.operation rs rt rd shamt ∧ (i.operation, funct.toNat) ∈ functionCodes := by
  unfold decodeFunct at h
  split_ifs at h with hf hf hf hf hf hf <;> cases h <;>
    exact ⟨rfl, by simp [hf, Instr.operation, functionCodes]⟩

/-- What the opcode table answers when it answers an instruction (R55). J carries only the target, so its record holds
`rs`, `rt` and `imm` when they are the target's bits. -/
theorem decodeOpcode_ok {opcode : BitVec 6} {rs rt : RegIdx} {imm : BitVec 16} {target : BitVec 26} {i : Instr}
    (hj : (Instr.j target).toRecord = recordI .j rs rt imm) (h : decodeOpcode opcode rs rt imm target = .ok i) :
    i.toRecord = recordI i.operation rs rt imm ∧ (i.operation, opcode.toNat) ∈ opcodeCodes := by
  unfold decodeOpcode at h
  split_ifs at h with ho ho ho ho ho ho ho ho ho <;> cases h <;>
    refine ⟨?_, by simp [ho, Instr.operation, opcodeCodes]⟩
  any_goals rfl
  exact hj -- the row of J

/-- The fields rs, rt and immediate of a word lie in its target. -/
theorem toRecord_j_fieldTarget (w : Word) :
    (Instr.j (fieldTarget w)).toRecord = recordI .j (fieldRs w) (fieldRt w) (fieldImm w) := by
  have hrs : (fieldTarget w).extractLsb' 21 5 = fieldRs w := BitVec.extractLsb'_extractLsb'_of_le (by decide)
  have hrt : (fieldTarget w).extractLsb' 16 5 = fieldRt w := BitVec.extractLsb'_extractLsb'_of_le (by decide)
  have himm : (fieldTarget w).extractLsb' 0 16 = fieldImm w := BitVec.extractLsb'_extractLsb'_of_le (by decide)
  rw [Instr.toRecord, hrs, hrt, himm]

/-- What a word that decodes decodes to, by class: its operation stands in the class's table and its record holds
the word's fields. -/
theorem decode_ok_cases {w : Word} {i : Instr} (h : decode w = .ok i) :
    (fieldOpcode w = 0#6 ∧
      i.toRecord = recordR i.operation (fieldRs w) (fieldRt w) (fieldRd w) (fieldShamt w) ∧
      (i.operation, (fieldFunct w).toNat) ∈ functionCodes) ∨
    (fieldOpcode w ≠ 0#6 ∧
      i.toRecord = recordI i.operation (fieldRs w) (fieldRt w) (fieldImm w) ∧
      (i.operation, (fieldOpcode w).toNat) ∈ opcodeCodes) := by
  unfold decode at h
  split_ifs at h with h0
  · exact .inl ⟨h0, decodeFunct_ok h⟩
  · exact .inr ⟨h0, decodeOpcode_ok (toRecord_j_fieldTarget w) h⟩

theorem fieldOpcode_eq_zero_iff (w : Word) : fieldOpcode w = 0#6 ↔ w.toNat / 2 ^ 26 = 0 := by
  rw [← fieldOpcode_toNat, ← BitVec.toNat_inj, BitVec.toNat_zero]

/-- The jump target of the record of the other class, put together from its fields, is bits 25:0. -/
theorem recordI_jumpTarget_toNat (op : Operation) (w : Word) :
    (recordI op (fieldRs w) (fieldRt w) (fieldImm w)).jumpTarget.toNat = w.toNat % 2 ^ 26 := by
  simp only [recordI, append_toNat, fieldRs_toNat, fieldRt_toNat, fieldImm_toNat]
  omega

/-- Settles O17, by the class of the word (`decode_ok_cases`) and the fields as numbers. -/
theorem decodedFieldsAreTheWordsBits : Obligations.DecodedFieldsAreTheWordsBits := by
  intro w i h
  obtain ⟨h0, hrec, hop⟩ | ⟨h0, hrec, hop⟩ := decode_ok_cases h
  · rw [fieldOpcode_eq_zero_iff] at h0
    rw [fieldFunct_toNat] at hop
    rw [hrec]
    exact ⟨fieldRs_toNat w, fieldRt_toNat w, fun _ => ⟨fieldRd_toNat w, fieldShamt_toNat w, hop⟩,
      fun hne => absurd h0 hne⟩
  · rw [ne_eq, fieldOpcode_eq_zero_iff] at h0
    rw [fieldOpcode_toNat] at hop
    rw [hrec]
    exact ⟨fieldRs_toNat w, fieldRt_toNat w, fun he => absurd he h0,
      fun _ => ⟨fieldImm_toNat w, recordI_jumpTarget_toNat i.operation w, hop⟩⟩

end Sys2Proof
end

section
/-! The epilogue of the step (R85) and the sentinel (R82): which answers leave register 0 zero, and the zero word at
the pc from its four bytes. -/

namespace Sys2Proof.Machine

/-! Every completion ends in the epilogue. -/

@[simp] theorem readReg_zero_completeAt (target : Word) (s : State) : readReg (completeAt target s) 0#5 = 0#32 :=
  readReg_completeAt target s 0#5

@[simp] theorem readReg_zero_complete (s : State) : readReg (complete s) 0#5 = 0#32 :=
  readReg_complete s 0#5

@[simp] theorem readReg_zero_writeBack (i : RegIdx) (v : Word) (s : State) : readReg (writeBack i v s) 0#5 = 0#32 :=
  readReg_writeBack i v s 0#5

@[simp] theorem readReg_zero_storeBack (a v : Word) (s : State) : readReg (storeBack a v s) 0#5 = 0#32 :=
  readReg_storeBack a v s 0#5

@[simp] theorem readReg_zero_branchOn (taken : Bool) (imm : BitVec 16) (s : State) :
    readReg (branchOn taken imm s) 0#5 = 0#32 :=
  readReg_zero_completeAt _ s

/-- Every instruction but TRAP ends in one of the completions, so it leaves register 0 zero (R85). -/
theorem exec_forces_zero {i : Instr} {s t : State} (hi : i.operation ≠ .trap) (h : exec i s = .next t) :
    readReg t 0#5 = 0#32 := by
  obtain ⟨ht, -⟩ | ⟨-, -, rd, v, -, hx⟩ | ⟨-, rs, rt, imm, -, hx⟩ | ⟨-, -, -, ⟨taken, imm, hx⟩ | ⟨target, hx⟩⟩ :=
    exec_cases i s
  · exact absurd ht hi
  all_goals
    rw [hx] at h
    cases h
    simp

/-- Whatever its ignored fields hold, a TRAP runs the handler (R57(b), R130). -/
theorem exec_of_operation_trap {i : Instr} (hi : i.operation = .trap) (s : State) : exec i s = execTrap s := by
  cases i with
  | trap => rfl
  | _ => cases hi

/-- TRAP leaves register 0 zero unless it ends the run: traps 1, 4 and 5 complete, the other codes have no epilogue
(R138). -/
theorem execTrap_forces_zero {s t : State} (h : execTrap s = .next t) (hrun : t.runState = .running) :
    readReg t 0#5 = 0#32 := by
  obtain ⟨-, hx⟩ | ⟨-, bytes, -, hx⟩ | ⟨-, -, hx⟩ | ⟨-, v, -, hx⟩ | ⟨-, -, hx⟩ | ⟨-, hx⟩ | ⟨-, hx⟩ :=
    execTrap_cases s <;> rw [hx] at h <;> cases h
  · exact readReg_zero_complete _ -- trap 1
  · exact readReg_zero_complete _ -- trap 4
  · exact readReg_zero_writeBack _ _ _ -- trap 5, a value
  · exact readReg_zero_writeBack _ _ _ -- trap 5, a failure
  · cases hrun -- trap 10 halts
  · cases hrun -- an unknown code is fatal

/-- A step of a running machine that leaves it running executed an instruction: the sentinel and a decode error end
the run. -/
theorem step_running_exec {s t : State} (hs : s.runState = .running) (h : step s = .next t)
    (hrun : t.runState = .running) : ∃ i, decode (fetchWord s) = .ok i ∧ exec i s = .next t := by
  obtain ⟨hne, -⟩ | ⟨-, -, hx⟩ | ⟨-, -, e, -, hx⟩ | ⟨-, -, i, hd, hx⟩ := step_cases s
  · exact absurd hs hne
  · rw [hx] at h; cases h; cases hrun
  · rw [hx] at h; cases h; cases hrun
  · exact ⟨i, hd, hx ▸ h⟩

/-- Settles O4: a step that leaves the machine running executed an instruction (`step_running_exec`), and an executed
instruction ends in the epilogue unless it is a TRAP that ends the run. -/
theorem registerZeroIsForcedToZero : Obligations.RegisterZeroIsForcedToZero := by
  refine ⟨fun s t hs h hrun => ?_, fun i s t hi h => exec_forces_zero hi h⟩
  obtain ⟨i, -, hx⟩ := step_running_exec hs h hrun
  by_cases hi : i.operation = .trap
  · exact execTrap_forces_zero (exec_of_operation_trap hi s ▸ hx) hrun
  · exact exec_forces_zero hi hx

/-- A step of a running machine whose fetched word is zero halts it (R82). -/
theorem step_of_zero_word {s : State} (hs : s.runState = .running) (hw : fetchWord s = 0#32) :
    step s = .next (halt .fellOffEnd s) := by
  rw [step_of_running s hs, runCycle, if_pos hw]

/-- Settles O20: four zero bytes are the zero word, and `halt` does nothing but halt (`halt_spec`). -/
theorem zeroWordFallsOffTheEnd : Obligations.ZeroWordFallsOffTheEnd := by
  intro s hs h0 h1 h2 h3
  have hw : fetchWord s = 0#32 := by
    rw [fetchWord, Memory.readWord, byteAddr_zero, byteAddr, byteAddr, byteAddr, h0, h1, h2, h3]
    rfl
  exact ⟨halt .fellOffEnd s, step_of_zero_word hs hw, halt_spec .fellOffEnd s⟩

end Sys2Proof.Machine
end

section
/-! ADD, SUB, AND, OR and SLT (R91 to R95): each of them writes one result back, and what remains to be shown is
that the model's result is the rule's. -/

namespace Sys2Proof.Machine

open Sys2Proof.Safety

/-- An instruction that writes one result back completes in the frame of R90 and R104. -/
theorem writesRegister_of_exec_eq_writeBack {i : Instr} {s : State} {rd : RegIdx} {v : Word}
    (h : exec i s = .next (writeBack rd v s)) : ∃ t, exec i s = .next t ∧ WritesRegister s t rd v :=
  ⟨writeBack rd v s, h, writeBack_spec rd v s⟩

/-! What each instruction writes back; the shift amount is ignored (R57(a)). -/

section
variable (rs rt rd : RegIdx) (shamt : BitVec 5) (s : State)

theorem exec_add : exec (.add rs rt rd shamt) s = .next (writeBack rd (readReg s rs + readReg s rt) s) := rfl

theorem exec_sub : exec (.sub rs rt rd shamt) s = .next (writeBack rd (readReg s rs - readReg s rt) s) := rfl

theorem exec_and : exec (.and rs rt rd shamt) s = .next (writeBack rd (readReg s rs &&& readReg s rt) s) := rfl

theorem exec_or : exec (.or rs rt rd shamt) s = .next (writeBack rd (readReg s rs ||| readReg s rt) s) := rfl

theorem exec_slt : exec (.slt rs rt rd shamt) s =
    .next (writeBack rd (setLessThan (readReg s rs) (readReg s rt)) s) := rfl

end

/-- Settles O29: the sum of two words is the sum of their numbers modulo 2^32. -/
theorem addWritesTheSum : Obligations.AddWritesTheSum := by
  intro rs rt rd shamt s
  rw [← BitVec.add_def]
  exact writesRegister_of_exec_eq_writeBack (exec_add rs rt rd shamt s)

/-- Settles O30: the difference of two words is the sum with the complement to 2^32 that R92 spells out. -/
theorem subWritesTheDifference : Obligations.SubWritesTheDifference := by
  intro rs rt rd shamt s
  rw [Nat.add_comm, ← BitVec.sub_def]
  exact writesRegister_of_exec_eq_writeBack (exec_sub rs rt rd shamt s)

/-- Settles O31. -/
theorem andWritesTheBitwiseAnd : Obligations.AndWritesTheBitwiseAnd :=
  fun rs rt rd shamt s => writesRegister_of_exec_eq_writeBack (exec_and rs rt rd shamt s)

/-- Settles O32. -/
theorem orWritesTheBitwiseOr : Obligations.OrWritesTheBitwiseOr :=
  fun rs rt rd shamt s => writesRegister_of_exec_eq_writeBack (exec_or rs rt rd shamt s)

/-- Settles O33: `setLessThan` is the rule's comparison of the signed values. -/
theorem sltWritesTheSignedComparison : Obligations.SltWritesTheSignedComparison := by
  intro rs rt rd shamt s
  rw [← setLessThan]
  exact writesRegister_of_exec_eq_writeBack (exec_slt rs rt rd shamt s)

end Sys2Proof.Machine
end

section
/-! ADDIU, ANDI, ORI and LUI (R100 to R103): each of them writes one result back to `rt`, and what remains to be shown
is that the model's operand (R58) is the number the rule makes of the immediate. -/

namespace Sys2Proof.Machine

open Sys2Proof.Safety

/-! The operands of R58 as numbers. -/

theorem sext16_eq_ofInt (imm : BitVec 16) : sext16 imm = BitVec.ofInt 32 imm.toInt := rfl

theorem zext16_eq_ofNat (imm : BitVec 16) : zext16 imm = BitVec.ofNat 32 imm.toNat := (BitVec.ofNat_toNat 32 imm).symm

/-- A shift by 16 is a product with 2^16, modulo 2^32. -/
theorem upper16_eq_ofNat (imm : BitVec 16) : upper16 imm = BitVec.ofNat 32 (imm.toNat * 2 ^ 16) := by
  rw [upper16, zext16_eq_ofNat, BitVec.shiftLeft_eq_mul_twoPow, BitVec.ofNat_mul]
  rfl

/-! What each instruction writes back; the `rs` field of LUI is ignored (R57(c)). -/

section
variable (rs rt : RegIdx) (imm : BitVec 16) (s : State)

theorem exec_addiu : exec (.addiu rs rt imm) s = .next (writeBack rt (readReg s rs + sext16 imm) s) := rfl

theorem exec_andi : exec (.andi rs rt imm) s = .next (writeBack rt (readReg s rs &&& zext16 imm) s) := rfl

theorem exec_ori : exec (.ori rs rt imm) s = .next (writeBack rt (readReg s rs ||| zext16 imm) s) := rfl

theorem exec_lui : exec (.lui rs rt imm) s = .next (writeBack rt (upper16 imm) s) := rfl

end

/-- Settles O34: `sext16` is the immediate's signed value. -/
theorem addiuAddsTheSignedImmediate : Obligations.AddiuAddsTheSignedImmediate := by
  intro rs rt imm s
  rw [← sext16_eq_ofInt]
  exact writesRegister_of_exec_eq_writeBack (exec_addiu rs rt imm s)

/-- Settles O35: `zext16` is the immediate's unsigned value. -/
theorem andiAndsTheUnsignedImmediate : Obligations.AndiAndsTheUnsignedImmediate := by
  intro rs rt imm s
  rw [← zext16_eq_ofNat]
  exact writesRegister_of_exec_eq_writeBack (exec_andi rs rt imm s)

/-- Settles O36: `zext16` is the immediate's unsigned value. -/
theorem oriOrsTheUnsignedImmediate : Obligations.OriOrsTheUnsignedImmediate := by
  intro rs rt imm s
  rw [← zext16_eq_ofNat]
  exact writesRegister_of_exec_eq_writeBack (exec_ori rs rt imm s)

/-- Settles O37: `upper16` is the immediate's unsigned value times 2^16. -/
theorem luiLoadsTheUpperHalf : Obligations.LuiLoadsTheUpperHalf := by
  intro rs rt imm s
  rw [← upper16_eq_ofNat]
  exact writesRegister_of_exec_eq_writeBack (exec_lui rs rt imm s)

end Sys2Proof.Machine
end

section
/-! BEQ, BNE and J (R121 to R123): each of them completes at one target, and what remains to be shown is that the
model's target is the rule's. -/

namespace Sys2Proof.Machine

open Sys2Proof.Safety

/-- An instruction that completes at a target has no effect but the pc (R120). -/
theorem setsPc_of_exec_eq_completeAt {i : Instr} {s : State} {target : Word}
    (h : exec i s = .next (completeAt target s)) : ∃ t, exec i s = .next t ∧ SetsPc s t target :=
  ⟨completeAt target s, h, completeAt_spec target s⟩

/-! The targets of R120 and R123 as numbers. -/

/-- A shift by 2 is a product with 4, modulo 2^32. -/
theorem sext16_shiftLeft_two (imm : BitVec 16) : sext16 imm <<< 2 = BitVec.ofInt 32 (4 * imm.toInt) := by
  rw [sext16_eq_ofInt, BitVec.shiftLeft_eq_mul_twoPow, BitVec.mul_comm, BitVec.ofInt_mul]
  rfl

theorem branchTarget_eq (s : State) (imm : BitVec 16) :
    branchTarget s imm = s.pc + 4#32 + BitVec.ofInt 32 (4 * imm.toInt) := by
  rw [branchTarget, nextPc, sext16_shiftLeft_two]

/-- The region of an address, its upper four bits: masking is shifting the other 28 out and zeros in. -/
theorem and_regionMask_toNat (a : Word) : (a &&& 0xF0000000#32).toNat = a.toNat / 2 ^ 28 * 2 ^ 28 := by
  have hmask : a &&& 0xF0000000#32 = a >>> 28 <<< 28 := by
    rw [BitVec.shiftLeft_ushiftRight]; rfl
  rw [hmask, BitVec.toNat_shiftLeft, BitVec.toNat_ushiftRight, Nat.shiftRight_eq_div_pow, Nat.shiftLeft_eq]
  omega

theorem zeroExtend_shiftLeft_two_toNat (target : BitVec 26) :
    (target.zeroExtend 32 <<< 2).toNat = 4 * target.toNat := by
  rw [BitVec.toNat_shiftLeft, BitVec.toNat_setWidth, Nat.shiftLeft_eq]
  omega

/-- The region and the 28-bit offset share no bit, so joining them by OR adds them. -/
theorem jumpTarget_eq_ofNat (s : State) (target : BitVec 26) :
    jumpTarget s target = BitVec.ofNat 32 (s.pc.toNat / 2 ^ 28 * 2 ^ 28 + 4 * target.toNat) := by
  have hoffset : 4 * target.toNat < 2 ^ 28 := by omega
  have hnat : (jumpTarget s target).toNat = s.pc.toNat / 2 ^ 28 * 2 ^ 28 + 4 * target.toNat := by
    rw [jumpTarget, BitVec.toNat_or, and_regionMask_toNat, zeroExtend_shiftLeft_two_toNat, ← Nat.shiftLeft_eq,
      Nat.shiftLeft_add_eq_or_of_lt hoffset]
  rw [← hnat, BitVec.ofNat_toNat, BitVec.setWidth_eq]

/-! Where each instruction completes. -/

section
variable (rs rt : RegIdx) (imm : BitVec 16) (target : BitVec 26) (s : State)

theorem exec_beq : exec (.beq rs rt imm) s =
    .next (completeAt (if readReg s rs = readReg s rt then branchTarget s imm else nextPc s) s) := by
  have h : exec (.beq rs rt imm) s = .next (branchOn (readReg s rs == readReg s rt) imm s) := rfl
  simp only [h, branchOn, beq_iff_eq]

theorem exec_bne : exec (.bne rs rt imm) s =
    .next (completeAt (if readReg s rs = readReg s rt then nextPc s else branchTarget s imm) s) := by
  have h : exec (.bne rs rt imm) s = .next (branchOn (readReg s rs != readReg s rt) imm s) := rfl
  simp only [h, branchOn, bne_iff_ne, ne_eq, ite_not]

theorem exec_j : exec (.j target) s = .next (completeAt (jumpTarget s target) s) := rfl

end

/-- Settles O49: the taken target is `branchTarget`, the other one `nextPc`. -/
theorem beqBranchesOnEqual : Obligations.BeqBranchesOnEqual := by
  intro rs rt imm s
  rw [← branchTarget_eq]
  exact setsPc_of_exec_eq_completeAt (exec_beq rs rt imm s)

/-- Settles O50: the targets of BEQ under the opposite condition. -/
theorem bneBranchesOnNotEqual : Obligations.BneBranchesOnNotEqual := by
  intro rs rt imm s
  rw [← branchTarget_eq]
  exact setsPc_of_exec_eq_completeAt (exec_bne rs rt imm s)

/-- Settles O51: `jumpTarget` is the region of the J's own pc plus four times the target. -/
theorem jumpStaysInItsRegion : Obligations.JumpStaysInItsRegion := by
  intro target s
  rw [← jumpTarget_eq_ofNat]
  exact setsPc_of_exec_eq_completeAt (exec_j target s)

end Sys2Proof.Machine
end

section
/-! Inversion of an answer: which state an instruction, TRAP or a step that completes leaves, said once from
`exec_cases`, `execTrap_cases` and `step_cases`; and that every one of those states keeps the invariant (R12, R16,
R126). -/

namespace Sys2Proof.Machine

open Sys2Proof.Safety

/-- Two next states that one computation answers are the same. -/
theorem eq_of_next {o : Host.Outcome State Fault Refusal} {t u : State} (ht : o = .next t) (hu : o = .next u) :
    t = u :=
  Host.Outcome.next.inj (ht.symm.trans hu)

/-- The states TRAP can leave, by code (R131). -/
theorem execTrap_next {s t : State} (h : execTrap s = .next t) :
    (trapCode s = 1 ∧ t = complete (consoleOut (formatDec (readReg s Config.trapArgReg)) s)) ∨
    (trapCode s = 4 ∧ ∃ bytes, t = complete (consoleOut bytes s)) ∨
    (trapCode s = 5 ∧ ∃ v, t = writeBack Config.trapCodeReg v (dropLine s)) ∨
    (trapCode s = 5 ∧ t =
      writeBack Config.trapCodeReg 0#32 (reportError (.inputParseError (nextLine s)) (dropLine s))) ∨
    (trapCode s = 10 ∧ t = halt .exitTrap s) ∨
    (trapCode s ∉ [1, 4, 5, 10] ∧ t = raiseFatal .unknownTrap (trapCode s) s) := by
  obtain ⟨hc, hx⟩ | ⟨hc, bytes, -, hx⟩ | ⟨-, -, hx⟩ | ⟨hc, v, -, hx⟩ | ⟨hc, -, hx⟩ | ⟨hc, hx⟩ | ⟨hc, hx⟩ :=
    execTrap_cases s
  · exact .inl ⟨hc, eq_of_next h hx⟩
  · exact .inr (.inl ⟨hc, bytes, eq_of_next h hx⟩)
  · exact absurd (h.symm.trans hx) nofun
  · exact .inr (.inr (.inl ⟨hc, v, eq_of_next h hx⟩))
  · exact .inr (.inr (.inr (.inl ⟨hc, eq_of_next h hx⟩)))
  · exact .inr (.inr (.inr (.inr (.inl ⟨hc, eq_of_next h hx⟩))))
  · exact .inr (.inr (.inr (.inr (.inr ⟨hc, eq_of_next h hx⟩))))

/-- The states an instruction can leave: TRAP's, or one of the three shapes of completion. -/
theorem exec_next {i : Instr} {s t : State} (h : exec i s = .next t) :
    (i.operation = .trap ∧ execTrap s = .next t) ∨
    (i.operation ≠ .trap ∧ ∃ rd v, destination i s = some rd ∧ t = writeBack rd v s) ∨
    (i.operation = .sw ∧ ∃ a v, t = storeBack a v s) ∨
    (i.operation ≠ .trap ∧ ((∃ taken imm, t = branchOn taken imm s) ∨
      ∃ target, t = completeAt (jumpTarget s target) s)) := by
  obtain ⟨hi, hx⟩ | ⟨hi, -, rd, v, hd, hx⟩ | ⟨hi, rs, rt, imm, -, hx⟩ | ⟨hi, -, -, ⟨taken, imm, hx⟩ | ⟨target, hx⟩⟩ :=
    exec_cases i s
  · exact .inl ⟨hi, hx ▸ h⟩
  · exact .inr (.inl ⟨hi, rd, v, hd, eq_of_next h hx⟩)
  · exact .inr (.inr (.inl ⟨hi, _, _, eq_of_next h hx⟩))
  · exact .inr (.inr (.inr ⟨hi, .inl ⟨taken, imm, eq_of_next h hx⟩⟩))
  · exact .inr (.inr (.inr ⟨hi, .inr ⟨target, eq_of_next h hx⟩⟩))

/-- The states a step can leave (R81, R88). -/
theorem step_next {s t : State} (h : step s = .next t) :
    (s.runState ≠ .running ∧ t = s) ∨
    (s.runState = .running ∧ fetchWord s = 0#32 ∧ t = halt .fellOffEnd s) ∨
    (s.runState = .running ∧ fetchWord s ≠ 0#32 ∧ ∃ e, decode (fetchWord s) = .error e ∧
      t = raiseFatal (decodeErrorKind e) (decodeErrorCode e) s) ∨
    (s.runState = .running ∧ ∃ i, decode (fetchWord s) = .ok i ∧ exec i s = .next t) := by
  obtain ⟨hr, hx⟩ | ⟨hr, hw, hx⟩ | ⟨hr, hw, e, hd, hx⟩ | ⟨hr, -, i, hd, hx⟩ := step_cases s
  · exact .inl ⟨hr, eq_of_next h hx⟩
  · exact .inr (.inl ⟨hr, hw, eq_of_next h hx⟩)
  · exact .inr (.inr (.inl ⟨hr, hw, e, hd, eq_of_next h hx⟩))
  · exact .inr (.inr (.inr ⟨hr, i, hd, hx ▸ h⟩))

/-! The targets of a completion are aligned when the pc is (R16, R126). -/

section
variable {s : State} (h : s.pc.toNat % 4 = 0)
include h

theorem nextPc_aligned : (nextPc s).toNat % 4 = 0 := by
  rw [nextPc, BitVec.toNat_add, BitVec.toNat_ofNat]; omega

theorem branchTarget_aligned (imm : BitVec 16) : (branchTarget s imm).toNat % 4 = 0 := by
  have hnext := nextPc_aligned h
  rw [branchTarget, BitVec.toNat_add, BitVec.toNat_shiftLeft, Nat.shiftLeft_eq]; omega

end

/-- The target of J is aligned wherever the J stands. -/
theorem jumpTarget_aligned (s : State) (target : BitVec 26) : (jumpTarget s target).toNat % 4 = 0 := by
  rw [jumpTarget_eq_ofNat, BitVec.toNat_ofNat]; omega

/-! Each shape of answer keeps the invariant. -/

theorem inv_completeAt {s : State} {target : Word} (hmem : s.mem.wf) (htarget : target.toNat % 4 = 0) :
    Inv (completeAt target s) :=
  ⟨hmem, readReg_zero_completeAt target s, htarget⟩

theorem inv_complete {s : State} (hmem : s.mem.wf) (hpc : s.pc.toNat % 4 = 0) : Inv (complete s) :=
  inv_completeAt hmem (nextPc_aligned hpc)

theorem inv_writeBack {s : State} (rd : RegIdx) (v : Word) (hmem : s.mem.wf) (hpc : s.pc.toNat % 4 = 0) :
    Inv (writeBack rd v s) :=
  inv_complete (s := writeReg rd v s) hmem hpc

theorem inv_storeBack {s : State} (a v : Word) (hmem : s.mem.wf) (hpc : s.pc.toNat % 4 = 0) :
    Inv (storeBack a v s) :=
  inv_complete (s := { s with mem := s.mem.writeWord a v }) (wf_writeWord s.mem a v hmem) hpc

theorem inv_branchOn {s : State} (taken : Bool) (imm : BitVec 16) (hmem : s.mem.wf) (hpc : s.pc.toNat % 4 = 0) :
    Inv (branchOn taken imm s) := by
  cases taken with
  | false => exact inv_completeAt hmem (nextPc_aligned hpc)
  | true => exact inv_completeAt hmem (branchTarget_aligned hpc imm)

theorem inv_halt {s : State} (reason : HaltReason) (h : Inv s) : Inv (halt reason s) := h

theorem inv_raiseFatal {s : State} (kind : FatalKind) (code : Int) (h : Inv s) : Inv (raiseFatal kind code s) := h

theorem inv_execTrap {s t : State} (hs : Inv s) (h : execTrap s = .next t) : Inv t := by
  obtain ⟨hmem, -, hpc⟩ := id hs
  obtain ⟨-, rfl⟩ | ⟨-, bytes, rfl⟩ | ⟨-, v, rfl⟩ | ⟨-, rfl⟩ | ⟨-, rfl⟩ | ⟨-, rfl⟩ := execTrap_next h
  · exact inv_complete hmem hpc
  · exact inv_complete hmem hpc
  · exact inv_writeBack _ _ hmem hpc
  · exact inv_writeBack _ _ hmem hpc
  · exact inv_halt _ hs
  · exact inv_raiseFatal _ _ hs

theorem inv_exec {i : Instr} {s t : State} (hs : Inv s) (h : exec i s = .next t) : Inv t := by
  obtain ⟨hmem, -, hpc⟩ := id hs
  obtain ⟨-, hx⟩ | ⟨-, rd, v, -, rfl⟩ | ⟨-, a, v, rfl⟩ | ⟨-, ⟨taken, imm, rfl⟩ | ⟨target, rfl⟩⟩ := exec_next h
  · exact inv_execTrap hs hx
  · exact inv_writeBack rd v hmem hpc
  · exact inv_storeBack a v hmem hpc
  · exact inv_branchOn taken imm hmem hpc
  · exact inv_completeAt hmem (jumpTarget_aligned s target)

/-- Settles O3, by the states a step can leave (`step_next`): an ended or ending machine keeps what the invariant
speaks of, and every executed instruction keeps the invariant. -/
theorem everyStepKeepsTheInvariant : Obligations.EveryStepKeepsTheInvariant := by
  intro s t hs h
  obtain ⟨-, rfl⟩ | ⟨-, -, rfl⟩ | ⟨-, -, e, -, rfl⟩ | ⟨-, i, -, hx⟩ := step_next h
  · exact hs
  · exact inv_halt _ hs
  · exact inv_raiseFatal _ _ hs
  · exact inv_exec hs hx

/-- Every register reads zero after reset, so register 0 does (R24). -/
theorem inv_resetWith {base : Word} {image : Memory} (input : List Line) (hbase : base.toNat % 4 = 0)
    (himage : image.wf) : Inv (State.resetWith base image input) :=
  ⟨himage, readReg_resetWith base image input 0#5, hbase⟩

/-- Settles O2: `State.reset` is a reset at an aligned base with the empty image. -/
theorem resetMeetsTheInvariant : Obligations.ResetMeetsTheInvariant :=
  ⟨inv_resetWith [] (by decide) wf_reset_mem, fun _ _ input hbase himage => inv_resetWith input hbase himage⟩

/-- Settles O1. -/
theorem resetHoldsTheStatedValues : Obligations.ResetHoldsTheStatedValues :=
  fun base image input => ⟨readReg_resetWith base image input, rfl, rfl, rfl, rfl, rfl⟩

end Sys2Proof.Machine
end

section
/-! What an instruction writes and what it leaves (R14, R38, R139 to R141), read off the states it can leave
(`exec_next`, `execTrap_next`). -/

namespace Sys2Proof.Machine

open Sys2Proof.Safety

/-! Register 0 (R12, D13). -/

/-- Writing the value a register holds changes nothing. -/
theorem writeReg_readReg (i : RegIdx) (s : State) : writeReg i (readReg s i) s = s := by
  simp [writeReg, readReg]

/-- Of two writes to one register the second stays. -/
theorem writeReg_writeReg (i : RegIdx) (u v : Word) (s : State) : writeReg i u (writeReg i v s) = writeReg i u s := by
  simp [writeReg]

theorem forceZero_of_readReg_zero {s : State} (h : readReg s 0#5 = 0#32) : forceZero s = s := by
  rw [forceZero, ← h, writeReg_readReg]

/-- Settles O5: a write to register 0 is overwritten by the epilogue, any other write leaves register 0 zero, where
the epilogue does nothing. -/
theorem writeThenForceIsDiscard : Obligations.WriteThenForceIsDiscard := by
  intro s i v h0
  split_ifs with hi
  · rw [hi, forceZero, writeReg_writeReg]
    exact forceZero_of_readReg_zero h0
  · refine forceZero_of_readReg_zero ?_
    rw [readReg_writeReg, if_neg (Ne.symm hi), h0]

/-! The writes column of R14. -/

theorem readReg_completeAt_of_ne_zero {r : RegIdx} (hr : r ≠ 0#5) (target : Word) (s : State) :
    readReg (completeAt target s) r = readReg s r := by
  rw [readReg_completeAt, if_neg hr]

theorem readReg_complete_of_ne_zero {r : RegIdx} (hr : r ≠ 0#5) (s : State) : readReg (complete s) r = readReg s r :=
  readReg_completeAt_of_ne_zero hr _ s

theorem readReg_storeBack_of_ne_zero {r : RegIdx} (hr : r ≠ 0#5) (a v : Word) (s : State) :
    readReg (storeBack a v s) r = readReg s r := by
  rw [readReg_storeBack, if_neg hr]

theorem readReg_writeBack_of_ne {r rd : RegIdx} (hr : r ≠ 0#5) (hrd : rd ≠ r) (v : Word) (s : State) :
    readReg (writeBack rd v s) r = readReg s r := by
  rw [readReg_writeBack, if_neg hr, if_neg (Ne.symm hrd)]

/-- TRAP's destination depends on its code alone (R14). -/
theorem destination_of_operation_trap {i : Instr} (hi : i.operation = .trap) (s : State) :
    destination i s = if trapCode s = 5 then some Config.trapCodeReg else none := by
  cases i with
  | trap => rfl
  | _ => cases hi

/-- TRAP changes no register but register 0 and, with code 5, the code register. -/
theorem readReg_execTrap {s t : State} (h : execTrap s = .next t) {r : RegIdx} (hr : r ≠ 0#5)
    (hd : trapCode s = 5 → Config.trapCodeReg ≠ r) : readReg t r = readReg s r := by
  obtain ⟨-, rfl⟩ | ⟨-, bytes, rfl⟩ | ⟨hc, v, rfl⟩ | ⟨hc, rfl⟩ | ⟨-, rfl⟩ | ⟨-, rfl⟩ := execTrap_next h
  · exact readReg_complete_of_ne_zero hr _
  · exact readReg_complete_of_ne_zero hr _
  · exact readReg_writeBack_of_ne hr (hd hc) _ _
  · exact readReg_writeBack_of_ne hr (hd hc) _ _
  · rfl
  · rfl

/-- Settles O6, by the states an instruction can leave. -/
theorem onlyTheDestinationRegisterChanges : Obligations.OnlyTheDestinationRegisterChanges := by
  intro i s t h r hr hd
  obtain ⟨hi, hx⟩ | ⟨-, rd, v, hrd, rfl⟩ | ⟨-, a, v, rfl⟩ | ⟨-, ⟨taken, imm, rfl⟩ | ⟨target, rfl⟩⟩ := exec_next h
  · rw [destination_of_operation_trap hi] at hd
    exact readReg_execTrap hx hr fun hc e => hd (by rw [if_pos hc, e])
  · exact readReg_writeBack_of_ne hr (fun e => hd (by rw [hrd, e])) v s
  · exact readReg_storeBack_of_ne_zero hr a v s
  · exact readReg_completeAt_of_ne_zero hr _ s
  · exact readReg_completeAt_of_ne_zero hr _ s

/-! Memory (R38) and the console (R139 to R141). -/

theorem execTrap_mem {s t : State} (h : execTrap s = .next t) : t.mem = s.mem := by
  obtain ⟨-, rfl⟩ | ⟨-, bytes, rfl⟩ | ⟨-, v, rfl⟩ | ⟨-, rfl⟩ | ⟨-, rfl⟩ | ⟨-, rfl⟩ := execTrap_next h <;> rfl

/-- Only the store's shape of completion writes memory. -/
theorem exec_mem {i : Instr} {s t : State} (hi : i.operation ≠ .sw) (h : exec i s = .next t) : t.mem = s.mem := by
  obtain ⟨-, hx⟩ | ⟨-, rd, v, -, rfl⟩ | ⟨hsw, -⟩ | ⟨-, ⟨taken, imm, rfl⟩ | ⟨target, rfl⟩⟩ := exec_next h
  · exact execTrap_mem hx
  · rfl
  · exact absurd hsw hi
  · rfl
  · rfl

/-- Settles O8: such an instruction leaves the memory itself as it was. -/
theorem onlyStoreWordChangesMemory : Obligations.OnlyStoreWordChangesMemory := by
  intro i s t hi h a
  rw [exec_mem hi h]

/-- Settles O9: no shape of completion touches the console or the run state. -/
theorem onlyTrapTouchesTheConsole : Obligations.OnlyTrapTouchesTheConsole := by
  intro i s t hi h
  obtain ⟨ht, -⟩ | ⟨-, rd, v, -, rfl⟩ | ⟨-, a, v, rfl⟩ | ⟨-, ⟨taken, imm, rfl⟩ | ⟨target, rfl⟩⟩ := exec_next h
  · exact absurd ht hi
  all_goals exact ⟨⟨rfl, rfl, rfl⟩, rfl⟩

/-- Output and reports have grown at the end, and at most one line is gone from the front of the input. -/
def StreamsAdvance (s t : State) : Prop :=
  (∃ bytes, t.out = s.out ++ bytes) ∧ (∃ reports, t.errors = s.errors ++ reports) ∧
    ∃ lines, lines.length ≤ 1 ∧ s.input = lines ++ t.input

theorem StreamsAdvance.of_input_eq {s t : State} {bytes : List Byte} {reports : List ErrorReport}
    (hout : t.out = s.out ++ bytes) (herr : t.errors = s.errors ++ reports) (hin : t.input = s.input) :
    StreamsAdvance s t :=
  ⟨⟨bytes, hout⟩, ⟨reports, herr⟩, [], Nat.zero_le 1, hin.symm⟩

theorem StreamsAdvance.of_input_tail {s t : State} {bytes : List Byte} {reports : List ErrorReport}
    (hout : t.out = s.out ++ bytes) (herr : t.errors = s.errors ++ reports) (hin : t.input = s.input.tail) :
    StreamsAdvance s t := by
  refine ⟨⟨bytes, hout⟩, ⟨reports, herr⟩, s.input.take 1, List.length_take_le 1 s.input, ?_⟩
  rw [hin, ← List.drop_one, List.take_append_drop]

theorem StreamsAdvance.of_consoleSame {s t : State} (h : ConsoleSame s t) : StreamsAdvance s t := by
  obtain ⟨hout, hin, herr⟩ := h
  exact .of_input_eq (hout.trans (List.append_nil _).symm) (herr.trans (List.append_nil _).symm) hin

theorem streamsAdvance_halt (reason : HaltReason) (s : State) : StreamsAdvance s (halt reason s) :=
  .of_input_eq (halt_out reason s) (List.append_nil _).symm rfl

theorem streamsAdvance_raiseFatal (kind : FatalKind) (code : Int) (s : State) :
    StreamsAdvance s (raiseFatal kind code s) :=
  .of_input_eq (List.append_nil _).symm (raiseFatal_errors kind code s) rfl

theorem streamsAdvance_execTrap {s t : State} (h : execTrap s = .next t) : StreamsAdvance s t := by
  obtain ⟨-, rfl⟩ | ⟨-, bytes, rfl⟩ | ⟨-, v, rfl⟩ | ⟨-, rfl⟩ | ⟨-, rfl⟩ | ⟨-, rfl⟩ := execTrap_next h
  · exact .of_input_eq (consoleOut_out _ s) (List.append_nil _).symm rfl
  · exact .of_input_eq (consoleOut_out _ s) (List.append_nil _).symm rfl
  · exact .of_input_tail (List.append_nil _).symm (List.append_nil _).symm rfl
  · exact .of_input_tail (List.append_nil _).symm (reportError_errors _ (dropLine s)) rfl
  · exact streamsAdvance_halt _ s
  · exact streamsAdvance_raiseFatal _ _ s

/-- Settles O10, by the states a step can leave: the ends of a run, TRAP, and instructions that leave the console
alone (O9). -/
theorem consoleStreamsOnlyAdvance : Obligations.ConsoleStreamsOnlyAdvance := by
  intro s t h
  obtain ⟨-, rfl⟩ | ⟨-, -, rfl⟩ | ⟨-, -, e, -, rfl⟩ | ⟨-, i, -, hx⟩ := step_next h
  · exact StreamsAdvance.of_consoleSame ⟨rfl, rfl, rfl⟩
  · exact streamsAdvance_halt _ s
  · exact streamsAdvance_raiseFatal _ _ s
  · by_cases hi : i.operation = .trap
    · exact streamsAdvance_execTrap (exec_of_operation_trap hi s ▸ hx)
    · exact StreamsAdvance.of_consoleSame (onlyTrapTouchesTheConsole i s t hi hx).1

/-- Settles O11: `exec` does not hand the ignored fields on. -/
theorem ignoredFieldsMakeNoDifference : Obligations.IgnoredFieldsMakeNoDifference := by
  intro s
  refine ⟨?_, ?_, ?_, ?_, ?_, ?_, ?_⟩ <;> intros <;> rfl

end Sys2Proof.Machine
end

section
/-! TRAP by its code (R131 to R138): what the handler answers for each code, and from that the statements about its
four services and about the codes it does not know. -/

namespace Sys2Proof.Machine

open Sys2Proof.Safety

/-! The handler's table, code by code. -/

theorem execTrap_printInt {s : State} (h : trapCode s = 1) :
    execTrap s = .next (complete (consoleOut (formatDec (readReg s Config.trapArgReg)) s)) := by
  rw [execTrap, trapHandler, if_pos h, trapPrintInt]

theorem execTrap_printString {s : State} (h : trapCode s = 4) : execTrap s = trapPrintString s := by
  simp [execTrap, trapHandler, h]

theorem execTrap_readInt {s : State} (h : trapCode s = 5) : execTrap s = trapReadInt s := by
  simp [execTrap, trapHandler, h]

theorem execTrap_exit {s : State} (h : trapCode s = 10) : execTrap s = .next (halt .exitTrap s) := by
  simp [execTrap, trapHandler, h, trapExit]

theorem execTrap_unknown {s : State} (h : trapCode s ∉ [1, 4, 5, 10]) :
    execTrap s = .next (raiseFatal .unknownTrap (trapCode s) s) := by
  simp only [List.mem_cons, List.not_mem_nil, or_false, not_or] at h
  obtain ⟨h1, h4, h5, h10⟩ := h
  simp [execTrap, trapHandler, h1, h4, h5, h10, trapUnknown]

/-! The two services that look before they answer. -/

theorem trapPrintString_some {s : State} {bytes : List Byte}
    (h : s.mem.readCString (readReg s Config.trapArgReg) = some bytes) :
    trapPrintString s = .next (complete (consoleOut bytes s)) := by
  simp [trapPrintString, h]

theorem trapPrintString_none {s : State} (h : s.mem.readCString (readReg s Config.trapArgReg) = none) :
    trapPrintString s = .fault .unterminatedString := by
  simp [trapPrintString, h]

theorem trapReadInt_some {s : State} {v : Word} (h : parseInt (nextLine s) = some v) :
    trapReadInt s = .next (writeBack Config.trapCodeReg v (dropLine s)) := by
  simp [trapReadInt, h]

theorem trapReadInt_none {s : State} (h : parseInt (nextLine s) = none) : trapReadInt s =
    .next (writeBack Config.trapCodeReg 0#32 (reportError (.inputParseError (nextLine s)) (dropLine s))) := by
  simp [trapReadInt, h]

/-- TRAP's operand fields are ignored (R57(b), R130). -/
theorem exec_trap (rs rt rd : RegIdx) (shamt : BitVec 5) (s : State) :
    exec (.trap rs rt rd shamt) s = execTrap s := rfl

/-- Settles O52. -/
theorem trapOnePrintsTheInteger : Obligations.TrapOnePrintsTheInteger := by
  intro rs rt rd shamt s hc
  refine ⟨_, (exec_trap rs rt rd shamt s).trans (execTrap_printInt hc), ?_⟩
  exact ⟨rfl, rfl, readReg_complete _, fun _ => rfl, rfl, rfl, rfl⟩

/-- Settles O54: the line that is taken is the one that parses. -/
theorem trapFiveStoresTheParsedInteger : Obligations.TrapFiveStoresTheParsedInteger := by
  intro rs rt rd shamt s line rest v hc hin hp
  have hp' : parseInt (nextLine s) = some v := by rw [nextLine, hin, List.head?_cons, hp]
  have hrest : (dropLine s).input = rest := by rw [dropLine_input, hin, List.tail_cons]
  refine ⟨_, (exec_trap rs rt rd shamt s).trans ((execTrap_readInt hc).trans (trapReadInt_some hp')), ?_⟩
  exact ⟨hrest, rfl, rfl, rfl, readReg_writeBack _ _ _, fun _ => rfl, rfl⟩

/-- Settles O55. -/
theorem trapFiveSubstitutesZeroOnFailure : Obligations.TrapFiveSubstitutesZeroOnFailure := by
  intro rs rt rd shamt s hc hp
  refine ⟨_, (exec_trap rs rt rd shamt s).trans ((execTrap_readInt hc).trans (trapReadInt_none hp)), ?_⟩
  exact ⟨rfl, rfl, rfl, rfl, readReg_writeBack _ _ _, fun _ => rfl, rfl⟩

/-- Settles O56: `halt` does nothing but halt (`halt_spec`). -/
theorem trapTenExits : Obligations.TrapTenExits := by
  intro rs rt rd shamt s hc
  exact ⟨_, (exec_trap rs rt rd shamt s).trans (execTrap_exit hc), halt_spec .exitTrap s⟩

/-- `raiseFatal` (`raiseFatal_spec`), with the conjuncts in the order of the statements about ends of a run. -/
theorem raiseFatal_effect (kind : FatalKind) (code : Int) (s : State) :
    (raiseFatal kind code s).runState = .fatal kind code s.pc ∧ (raiseFatal kind code s).out = s.out ∧
      (raiseFatal kind code s).errors = s.errors ++ [.fatal kind code s.pc] ∧
      MachineSame s (raiseFatal kind code s) := by
  obtain ⟨hrun, herr, hout, hsame⟩ := raiseFatal_spec kind code s
  exact ⟨hrun, hout, herr, hsame⟩

/-- Settles O57: `raiseFatal` does nothing but end the run (`raiseFatal_effect`). -/
theorem unknownTrapCodeIsFatal : Obligations.UnknownTrapCodeIsFatal := by
  intro rs rt rd shamt s hc
  exact ⟨_, (exec_trap rs rt rd shamt s).trans (execTrap_unknown hc), raiseFatal_effect .unknownTrap (trapCode s) s⟩

end Sys2Proof.Machine
end

section
/-! The reads column of R14: two states that agree on what an instruction reads get the same answer. One lemma per
shape of answer, then one line per instruction. -/

namespace Sys2Proof.Machine

open Sys2Proof.Safety

/-- Two outcomes agree on everything but the registers, and on the register `d` that was written. -/
def AnswersAlike (d : Option RegIdx) (o o' : Host.Outcome State Fault Refusal) : Prop :=
  (∀ t, o = .next t → ∃ v, o' = .next v ∧ SameButRegisters t v ∧ ∀ r, d = some r → readReg v r = readReg t r) ∧
  (∀ f, o = .fault f → o' = .fault f)

theorem AnswersAlike.of_next {d : Option RegIdx} {t v : State} (h : SameButRegisters t v)
    (hd : ∀ r, d = some r → readReg v r = readReg t r) : AnswersAlike d (.next t) (.next v) := by
  refine ⟨fun t' ht => ?_, fun f hf => by cases hf⟩
  cases ht
  exact ⟨v, rfl, h, hd⟩

theorem AnswersAlike.of_fault (d : Option RegIdx) (f : Fault) : AnswersAlike d (.fault f) (.fault f) :=
  ⟨fun t ht => (by cases ht), fun _ hf => hf⟩

/-- The same answer with no register to compare. -/
theorem AnswersAlike.of_none {t v : State} (h : SameButRegisters t v) : AnswersAlike none (.next t) (.next v) :=
  .of_next h nofun

section
variable {s u : State} (h : SameButRegisters s u)
include h

/-! The updates of the state keep `SameButRegisters`. -/

theorem sameButRegisters_writeReg (i : RegIdx) (v : Word) : SameButRegisters (writeReg i v s) (writeReg i v u) := h

theorem sameButRegisters_completeAt (target : Word) :
    SameButRegisters (completeAt target s) (completeAt target u) := by
  obtain ⟨-, hmem, hrun, hcons⟩ := h
  exact ⟨rfl, hmem, hrun, hcons⟩

theorem nextPc_congr : nextPc u = nextPc s := by
  rw [nextPc, nextPc, h.1]

theorem sameButRegisters_complete : SameButRegisters (complete s) (complete u) := by
  rw [complete, complete, nextPc_congr h]
  exact sameButRegisters_completeAt h _

theorem sameButRegisters_consoleOut (bytes : List Byte) :
    SameButRegisters (consoleOut bytes s) (consoleOut bytes u) := by
  obtain ⟨hpc, hmem, hrun, hout, hin, herr⟩ := h
  exact ⟨hpc, hmem, hrun, congrArg (· ++ bytes) hout, hin, herr⟩

theorem sameButRegisters_reportError (r : ErrorReport) :
    SameButRegisters (reportError r s) (reportError r u) := by
  obtain ⟨hpc, hmem, hrun, hout, hin, herr⟩ := h
  exact ⟨hpc, hmem, hrun, hout, hin, congrArg (· ++ [r]) herr⟩

theorem sameButRegisters_dropLine : SameButRegisters (dropLine s) (dropLine u) := by
  obtain ⟨hpc, hmem, hrun, hout, hin, herr⟩ := h
  exact ⟨hpc, hmem, hrun, hout, congrArg List.tail hin, herr⟩

theorem nextLine_congr : nextLine u = nextLine s := by
  obtain ⟨-, -, -, -, hin, -⟩ := h
  rw [nextLine, nextLine, hin]

theorem sameButRegisters_halt (reason : HaltReason) : SameButRegisters (halt reason s) (halt reason u) := by
  obtain ⟨hpc, hmem, -, hout, hin, herr⟩ := h
  exact ⟨hpc, hmem, rfl, congrArg (· ++ haltMessage reason) hout, hin, herr⟩

theorem sameButRegisters_raiseFatal (kind : FatalKind) (code : Int) :
    SameButRegisters (raiseFatal kind code s) (raiseFatal kind code u) := by
  obtain ⟨hpc, hmem, -, hout, hin, herr⟩ := h
  refine ⟨hpc, hmem, ?_, hout, hin, ?_⟩
  · rw [raiseFatal_runState, raiseFatal_runState, hpc]
  · rw [raiseFatal_errors, raiseFatal_errors, herr, hpc]

/-! Each shape of completion, when what it is made from is the same. -/

theorem answersAlike_writeBack (rd : RegIdx) (v : Word) :
    AnswersAlike (some rd) (.next (writeBack rd v s)) (.next (writeBack rd v u)) := by
  refine .of_next (sameButRegisters_complete (sameButRegisters_writeReg h rd v)) fun r hr => ?_
  cases hr
  simp [readReg_writeBack]

theorem answersAlike_completeAt (target : Word) :
    AnswersAlike none (.next (completeAt target s)) (.next (completeAt target u)) :=
  .of_none (sameButRegisters_completeAt h target)

theorem answersAlike_storeBack (a v : Word) :
    AnswersAlike none (.next (storeBack a v s)) (.next (storeBack a v u)) := by
  obtain ⟨hpc, hmem, hrest⟩ := h
  exact .of_none (sameButRegisters_complete (s := { s with mem := s.mem.writeWord a v })
    (u := { u with mem := u.mem.writeWord a v }) ⟨hpc, congrArg (Memory.writeWord · a v) hmem, hrest⟩)

theorem branchTarget_congr (imm : BitVec 16) : branchTarget u imm = branchTarget s imm := by
  rw [branchTarget, branchTarget, nextPc_congr h]

theorem jumpTarget_congr (target : BitVec 26) : jumpTarget u target = jumpTarget s target := by
  rw [jumpTarget, jumpTarget, h.1]

/-! One source register, or two. -/

variable {rs rt : RegIdx}

/-- A result made from one register. -/
theorem answersAlike_unary (f : Word → Word) (rd : RegIdx) (hsrc : ∀ r ∈ [rs], readReg u r = readReg s r) :
    AnswersAlike (some rd) (.next (writeBack rd (f (readReg s rs)) s)) (.next (writeBack rd (f (readReg u rs)) u)) := by
  rw [List.forall_mem_singleton.mp hsrc]
  exact answersAlike_writeBack h rd _

omit h in
theorem readReg_congr_pair (hsrc : ∀ r ∈ [rs, rt], readReg u r = readReg s r) :
    readReg u rs = readReg s rs ∧ readReg u rt = readReg s rt := by
  simpa using hsrc

/-- A result made from two registers. -/
theorem answersAlike_binary (f : Word → Word → Word) (rd : RegIdx)
    (hsrc : ∀ r ∈ [rs, rt], readReg u r = readReg s r) :
    AnswersAlike (some rd) (.next (writeBack rd (f (readReg s rs) (readReg s rt)) s))
      (.next (writeBack rd (f (readReg u rs) (readReg u rt)) u)) := by
  obtain ⟨hrs, hrt⟩ := readReg_congr_pair hsrc
  rw [hrs, hrt]
  exact answersAlike_writeBack h rd _

/-- A branch whose condition is made from two registers. -/
theorem answersAlike_branch (f : Word → Word → Bool) (imm : BitVec 16)
    (hsrc : ∀ r ∈ [rs, rt], readReg u r = readReg s r) :
    AnswersAlike none (.next (branchOn (f (readReg s rs) (readReg s rt)) imm s))
      (.next (branchOn (f (readReg u rs) (readReg u rt)) imm u)) := by
  obtain ⟨hrs, hrt⟩ := readReg_congr_pair hsrc
  rw [hrs, hrt, branchOn, branchOn, branchTarget_congr h, nextPc_congr h]
  exact answersAlike_completeAt h _

/-- TRAP reads the code register, and for codes 1 and 4 the argument register. -/
theorem answersAlike_execTrap (hcode : trapCode u = trapCode s)
    (harg : trapCode s = 1 ∨ trapCode s = 4 → readReg u Config.trapArgReg = readReg s Config.trapArgReg) :
    AnswersAlike (if trapCode s = 5 then some Config.trapCodeReg else none) (execTrap s) (execTrap u) := by
  obtain ⟨hc, hx⟩ | ⟨hc, bytes, hr, hx⟩ | ⟨hc, hr, hx⟩ | ⟨hc, v, hp, hx⟩ | ⟨hc, hp, hx⟩ | ⟨hc, hx⟩ | ⟨hc, hx⟩ :=
    execTrap_cases s
  · rw [hx, execTrap_printInt (hcode.trans hc), harg (.inl hc), if_neg (by rw [hc]; decide)]
    exact .of_none (sameButRegisters_complete (sameButRegisters_consoleOut h _))
  · rw [← harg (.inr hc), ← h.2.1] at hr
    rw [hx, execTrap_printString (hcode.trans hc), trapPrintString_some hr, if_neg (by rw [hc]; decide)]
    exact .of_none (sameButRegisters_complete (sameButRegisters_consoleOut h _))
  · rw [← harg (.inr hc), ← h.2.1] at hr
    rw [hx, execTrap_printString (hcode.trans hc), trapPrintString_none hr]
    exact .of_fault _ _
  · rw [← nextLine_congr h] at hp
    rw [hx, execTrap_readInt (hcode.trans hc), trapReadInt_some hp, if_pos hc]
    exact answersAlike_writeBack (sameButRegisters_dropLine h) _ _
  · rw [← nextLine_congr h] at hp
    rw [hx, execTrap_readInt (hcode.trans hc), trapReadInt_none hp, nextLine_congr h, if_pos hc]
    exact answersAlike_writeBack (sameButRegisters_reportError (sameButRegisters_dropLine h) _) _ _
  · rw [hx, execTrap_exit (hcode.trans hc), if_neg (by rw [hc]; decide)]
    exact .of_none (sameButRegisters_halt h _)
  · have hc5 : trapCode s ≠ 5 := fun e => hc (by simp [e])
    rw [hx, execTrap_unknown (hcode.symm ▸ hc), hcode, if_neg hc5]
    exact .of_none (sameButRegisters_raiseFatal h _ _)

end

/-- The sources of a TRAP, taken apart: the code register, and for codes 1 and 4 the argument register. -/
theorem trap_sources_agree {rs rt rd : RegIdx} {shamt : BitVec 5} {s u : State}
    (hsrc : ∀ r ∈ sources (.trap rs rt rd shamt) s, readReg u r = readReg s r) : trapCode u = trapCode s ∧
      (trapCode s = 1 ∨ trapCode s = 4 → readReg u Config.trapArgReg = readReg s Config.trapArgReg) := by
  rw [sources] at hsrc
  split_ifs at hsrc with hc
  · obtain ⟨hcode, harg⟩ := readReg_congr_pair hsrc
    exact ⟨congrArg BitVec.toInt hcode, fun _ => harg⟩
  · have hcode := List.forall_mem_singleton.mp hsrc
    exact ⟨congrArg BitVec.toInt hcode, fun h => absurd h hc⟩

/-! What LW writes back and what SW stores. -/

theorem exec_lw (rs rt : RegIdx) (imm : BitVec 16) (s : State) : exec (.lw rs rt imm) s =
    .next (writeBack rt (s.mem.readWord (effectiveAddress s rs imm)) s) := rfl

theorem exec_sw (rs rt : RegIdx) (imm : BitVec 16) (s : State) : exec (.sw rs rt imm) s =
    .next (storeBack (effectiveAddress s rs imm) (readReg s rt) s) := rfl

theorem answersAlike_exec {i : Instr} {s u : State} (h : SameButRegisters s u)
    (hsrc : ∀ r ∈ sources i s, readReg u r = readReg s r) :
    AnswersAlike (destination i s) (exec i s) (exec i u) := by
  cases i with
  | add rs rt rd shamt => exact answersAlike_binary h (· + ·) rd hsrc
  | sub rs rt rd shamt => exact answersAlike_binary h (· - ·) rd hsrc
  | and rs rt rd shamt => exact answersAlike_binary h (· &&& ·) rd hsrc
  | or rs rt rd shamt => exact answersAlike_binary h (· ||| ·) rd hsrc
  | slt rs rt rd shamt => exact answersAlike_binary h setLessThan rd hsrc
  | trap rs rt rd shamt =>
    obtain ⟨hcode, harg⟩ := trap_sources_agree hsrc
    exact answersAlike_execTrap h hcode harg
  | addiu rs rt imm => exact answersAlike_unary h (· + sext16 imm) rt hsrc
  | andi rs rt imm => exact answersAlike_unary h (· &&& zext16 imm) rt hsrc
  | ori rs rt imm => exact answersAlike_unary h (· ||| zext16 imm) rt hsrc
  | lui rs rt imm => exact answersAlike_writeBack h rt (upper16 imm)
  | lw rs rt imm =>
    rw [exec_lw, exec_lw, effectiveAddress, effectiveAddress, h.2.1]
    exact answersAlike_unary h (fun x => s.mem.readWord (x + sext16 imm)) rt hsrc
  | sw rs rt imm =>
    obtain ⟨hrs, hrt⟩ := readReg_congr_pair hsrc
    rw [exec_sw, exec_sw, effectiveAddress, effectiveAddress, hrs, hrt]
    exact answersAlike_storeBack h _ _
  | beq rs rt imm => exact answersAlike_branch h branchIfEqual imm hsrc
  | bne rs rt imm => exact answersAlike_branch h branchIfNotEqual imm hsrc
  | j target =>
    rw [exec_j, exec_j, jumpTarget_congr h]
    exact answersAlike_completeAt h _

/-- Settles O7, instruction by instruction (`answersAlike_exec`). -/
theorem onlyTheSourceRegistersMatter : Obligations.OnlyTheSourceRegistersMatter :=
  fun _ _ _ h hsrc => answersAlike_exec h hsrc

end Sys2Proof.Machine
end

section
/-! The decoder and the encoder are inverse to each other (R65, R68), which words decode (R61, R65) and how the rows of
match and mask choose among them (R57): `decode` through its two tables, and a word through its fields. -/

namespace Sys2Proof

/-! `decode` by the class of the word (R53). -/

theorem decode_of_opcode_zero {w : Word} (h : fieldOpcode w = 0#6) :
    decode w = decodeFunct (fieldFunct w) (fieldRs w) (fieldRt w) (fieldRd w) (fieldShamt w) := by
  rw [decode, if_pos h]

theorem decode_of_opcode_ne_zero {w : Word} (h : fieldOpcode w ≠ 0#6) :
    decode w = decodeOpcode (fieldOpcode w) (fieldRs w) (fieldRt w) (fieldImm w) (fieldTarget w) := by
  rw [decode, if_neg h]

/-! The word of a format decodes through its class's table, on the fields it was made from. -/

theorem decode_encR (funct : BitVec 6) (rs rt rd : RegIdx) (shamt : BitVec 5) :
    decode (encR funct rs rt rd shamt) = decodeFunct funct rs rt rd shamt := by
  rw [decode_of_opcode_zero (fieldOpcode_encR ..), fieldFunct_encR, fieldRs_encR, fieldRt_encR, fieldRd_encR,
    fieldShamt_encR]

theorem decode_encI {opcode : BitVec 6} (h : opcode ≠ 0#6) (rs rt : RegIdx) (imm : BitVec 16) :
    decode (encI opcode rs rt imm) = decodeOpcode opcode rs rt imm (fieldTarget (encI opcode rs rt imm)) := by
  rw [decode_of_opcode_ne_zero (by rwa [fieldOpcode_encI]), fieldOpcode_encI, fieldRs_encI, fieldRt_encI, fieldImm_encI]

theorem decode_encJ (target : BitVec 26) : decode (encJ target) = .ok (.j target) := by
  rw [decode_of_opcode_ne_zero (by rw [fieldOpcode_encJ]; decide), fieldOpcode_encJ, fieldTarget_encJ]
  rfl

/-- Settles O12, by the format of the instruction: its word decodes through the table of its class, where its code
stands. -/
theorem decodeOfEncodeIsTheInstruction : Obligations.DecodeOfEncodeIsTheInstruction := by
  intro i
  cases i with
  | add | sub | and | or | slt | trap => exact decode_encR ..
  | addiu | andi | ori | lui | lw | sw | beq | bne => exact decode_encI (by decide) ..
  | j target => exact decode_encJ target

/-! A word is put together from its fields. -/

theorem encR_fields {w : Word} (h : fieldOpcode w = 0#6) :
    encR (fieldFunct w) (fieldRs w) (fieldRt w) (fieldRd w) (fieldShamt w) = w := by
  rw [fieldOpcode_eq_zero_iff] at h
  refine BitVec.eq_of_toNat_eq ?_
  rw [encR_toNat, fieldRs_toNat, fieldRt_toNat, fieldRd_toNat, fieldShamt_toNat, fieldFunct_toNat]
  omega

theorem encI_fields (w : Word) : encI (fieldOpcode w) (fieldRs w) (fieldRt w) (fieldImm w) = w := by
  refine BitVec.eq_of_toNat_eq ?_
  rw [encI_toNat, fieldOpcode_toNat, fieldRs_toNat, fieldRt_toNat, fieldImm_toNat]
  omega

theorem encJ_fields {w : Word} (h : fieldOpcode w = 2#6) : encJ (fieldTarget w) = w := by
  have hop : w.toNat / 2 ^ 26 = 2 := by rw [← fieldOpcode_toNat, h]; rfl
  refine BitVec.eq_of_toNat_eq ?_
  rw [encJ_toNat, fieldTarget_toNat]
  omega

/-- What the function table answers has the code and the fields that were asked for. -/
theorem encode_of_decodeFunct {funct : BitVec 6} {rs rt rd : RegIdx} {shamt : BitVec 5} {i : Instr}
    (h : decodeFunct funct rs rt rd shamt = .ok i) : encode i = encR funct rs rt rd shamt := by
  unfold decodeFunct at h
  split_ifs at h with hf hf hf hf hf hf <;> cases h <;> rw [hf, encode]

/-- What the opcode table answers has the code and the fields that were asked for; J has the target, which holds the
other fields' bits. -/
theorem encode_of_decodeOpcode {opcode : BitVec 6} {rs rt : RegIdx} {imm : BitVec 16} {target : BitVec 26} {i : Instr}
    (hj : opcode = 2#6 → encJ target = encI opcode rs rt imm) (h : decodeOpcode opcode rs rt imm target = .ok i) :
    encode i = encI opcode rs rt imm := by
  unfold decodeOpcode at h
  split_ifs at h with ho ho ho ho ho ho ho ho ho <;> cases h
  pick_goal 9 -- the row of J
  · exact hj ho
  all_goals rw [ho, encode]

/-- Settles O13, by the class of the word. -/
theorem encodeOfDecodeIsTheWord : Obligations.EncodeOfDecodeIsTheWord := by
  intro w i h
  by_cases h0 : fieldOpcode w = 0#6
  · rw [decode_of_opcode_zero h0] at h
    rw [encode_of_decodeFunct h, encR_fields h0]
  · rw [decode_of_opcode_ne_zero h0] at h
    have hj : fieldOpcode w = 2#6 → encJ (fieldTarget w) = encI (fieldOpcode w) (fieldRs w) (fieldRt w) (fieldImm w) :=
      fun h2 => by rw [encJ_fields h2, encI_fields]
    rw [encode_of_decodeOpcode hj h, encI_fields]

/-- Settles O14. -/
theorem wordsOfTheFormatsDecode : Obligations.WordsOfTheFormatsDecode :=
  ⟨rfl, rfl, rfl, rfl, rfl, rfl, rfl⟩

/-! Which codes each table knows (R54, R55, R61). -/

section
variable {funct opcode : BitVec 6} (rs rt rd : RegIdx) (shamt : BitVec 5) (imm : BitVec 16) (target : BitVec 26)

theorem decodeFunct_unknown (h : funct.toNat ∉ [12, 32, 34, 36, 37, 42]) :
    decodeFunct funct rs rt rd shamt = .error (.unknownFunction funct) := by
  simp only [List.mem_cons, List.not_mem_nil, or_false, not_or] at h
  simp [decodeFunct, ← BitVec.toNat_inj, h]

theorem decodeFunct_known (h : funct.toNat ∈ [12, 32, 34, 36, 37, 42]) :
    ∃ i, decodeFunct funct rs rt rd shamt = .ok i := by
  simp only [List.mem_cons, List.not_mem_nil, or_false] at h
  obtain h | h | h | h | h | h := h <;> simp [decodeFunct, ← BitVec.toNat_inj, h]

theorem decodeOpcode_unknown (h : opcode.toNat ∉ [2, 4, 5, 9, 12, 13, 15, 35, 43]) :
    decodeOpcode opcode rs rt imm target = .error (.unknownOpcode opcode) := by
  simp only [List.mem_cons, List.not_mem_nil, or_false, not_or] at h
  simp [decodeOpcode, ← BitVec.toNat_inj, h]

theorem decodeOpcode_known (h : opcode.toNat ∈ [2, 4, 5, 9, 12, 13, 15, 35, 43]) :
    ∃ i, decodeOpcode opcode rs rt imm target = .ok i := by
  simp only [List.mem_cons, List.not_mem_nil, or_false] at h
  obtain h | h | h | h | h | h | h | h | h := h <;> simp [decodeOpcode, ← BitVec.toNat_inj, h]

theorem decodeFunct_ok_iff :
    (∃ i, decodeFunct funct rs rt rd shamt = .ok i) ↔ funct.toNat ∈ [12, 32, 34, 36, 37, 42] := by
  refine ⟨fun ⟨i, hi⟩ => ?_, decodeFunct_known rs rt rd shamt⟩
  by_contra h
  rw [decodeFunct_unknown rs rt rd shamt h] at hi
  cases hi

theorem decodeOpcode_ok_iff :
    (∃ i, decodeOpcode opcode rs rt imm target = .ok i) ↔ opcode.toNat ∈ [2, 4, 5, 9, 12, 13, 15, 35, 43] := by
  refine ⟨fun ⟨i, hi⟩ => ?_, decodeOpcode_known rs rt imm target⟩
  by_contra h
  rw [decodeOpcode_unknown rs rt imm target h] at hi
  cases hi

end

/-- Settles O15, by the class of the word: the table of its class knows its code. -/
theorem decodeSucceedsExactlyOnTheSupportedWords : Obligations.DecodeSucceedsExactlyOnTheSupportedWords := by
  intro w
  by_cases h0 : fieldOpcode w = 0#6
  · rw [decode_of_opcode_zero h0, decodeFunct_ok_iff, fieldFunct_toNat]
    rw [fieldOpcode_eq_zero_iff] at h0
    have hno : w.toNat / 2 ^ 26 ∉ [2, 4, 5, 9, 12, 13, 15, 35, 43] := by rw [h0]; decide
    rw [or_iff_right hno, and_iff_right h0]
  · rw [decode_of_opcode_ne_zero h0, decodeOpcode_ok_iff, fieldOpcode_toNat]
    rw [fieldOpcode_eq_zero_iff] at h0
    rw [or_iff_left fun h => h0 h.1]

/-- Settles O16: the table of the class names the code it does not know. -/
theorem illegalWordsAreNamed : Obligations.IllegalWordsAreNamed := by
  refine fun w => ⟨fun h => ?_, fun h0 h => ?_⟩
  · rw [List.mem_cons, not_or, ← fieldOpcode_eq_zero_iff] at h
    obtain ⟨h0, hop⟩ := h
    rw [← fieldOpcode_toNat] at hop ⊢
    rw [decode_of_opcode_ne_zero h0, decodeOpcode_unknown _ _ _ _ hop, BitVec.ofNat_toNat, BitVec.setWidth_eq]
  · rw [← fieldOpcode_eq_zero_iff] at h0
    rw [← fieldFunct_toNat] at h ⊢
    rw [decode_of_opcode_zero h0, decodeFunct_unknown _ _ _ _ h, BitVec.ofNat_toNat, BitVec.setWidth_eq]

/-! The rows of match and mask (R57). -/

/-- Every instruction's word is in its row, by the lemma of its own (Laws/PerInstr). -/
theorem encode_matchesRow (i : Instr) : Laws.EncodeMatchesRow.Statement i := by
  cases i with
  | add rs rt rd shamt => exact Laws.EncodeMatchesRow.add rs rt rd shamt
  | sub rs rt rd shamt => exact Laws.EncodeMatchesRow.sub rs rt rd shamt
  | and rs rt rd shamt => exact Laws.EncodeMatchesRow.and rs rt rd shamt
  | or rs rt rd shamt => exact Laws.EncodeMatchesRow.or rs rt rd shamt
  | slt rs rt rd shamt => exact Laws.EncodeMatchesRow.slt rs rt rd shamt
  | trap rs rt rd shamt => exact Laws.EncodeMatchesRow.trap rs rt rd shamt
  | addiu rs rt imm => exact Laws.EncodeMatchesRow.addiu rs rt imm
  | andi rs rt imm => exact Laws.EncodeMatchesRow.andi rs rt imm
  | ori rs rt imm => exact Laws.EncodeMatchesRow.ori rs rt imm
  | lui rs rt imm => exact Laws.EncodeMatchesRow.lui rs rt imm
  | lw rs rt imm => exact Laws.EncodeMatchesRow.lw rs rt imm
  | sw rs rt imm => exact Laws.EncodeMatchesRow.sw rs rt imm
  | beq rs rt imm => exact Laws.EncodeMatchesRow.beq rs rt imm
  | bne rs rt imm => exact Laws.EncodeMatchesRow.bne rs rt imm
  | j target => exact Laws.EncodeMatchesRow.j target

theorem fieldOpcode_and (v w : Word) : fieldOpcode (v &&& w) = fieldOpcode v &&& fieldOpcode w :=
  BitVec.extractLsb'_and

theorem fieldFunct_and (v w : Word) : fieldFunct (v &&& w) = fieldFunct v &&& fieldFunct w :=
  BitVec.extractLsb'_and

/-- A mask that keeps bits 31:26 fixes the opcode. -/
theorem fieldOpcode_of_masked {w m p : Word} (hm : fieldOpcode m = 63#6) (h : w &&& m = p) :
    fieldOpcode w = fieldOpcode p := by
  rw [← h, fieldOpcode_and, hm, Laws.and_ones6]

/-- A mask that keeps bits 5:0 fixes the function. -/
theorem fieldFunct_of_masked {w m p : Word} (hm : fieldFunct m = 63#6) (h : w &&& m = p) :
    fieldFunct w = fieldFunct p := by
  rw [← h, fieldFunct_and, hm, Laws.and_ones6]

/-- A word in a row of format R decodes as the row's function. -/
theorem decode_of_maskedR {w p : Word} (hp : fieldOpcode p = 0#6) (h : w &&& 0xFC00003F#32 = p) :
    decode w = decodeFunct (fieldFunct p) (fieldRs w) (fieldRt w) (fieldRd w) (fieldShamt w) := by
  have h0 : fieldOpcode w = 0#6 := (fieldOpcode_of_masked rfl h).trans hp
  rw [decode_of_opcode_zero h0, fieldFunct_of_masked rfl h]

/-- A word in a row of the other class decodes as the row's opcode. -/
theorem decode_of_maskedI {w p : Word} (hp : fieldOpcode p ≠ 0#6) (h : w &&& 0xFC000000#32 = p) :
    decode w = decodeOpcode (fieldOpcode p) (fieldRs w) (fieldRt w) (fieldImm w) (fieldTarget w) := by
  have hop : fieldOpcode w = fieldOpcode p := fieldOpcode_of_masked rfl h
  rw [decode_of_opcode_ne_zero (hop ▸ hp), hop]

/-- A word in a row decodes to the row's operation. -/
theorem decode_of_row {w : Word} {row : OpcodeRow} (hrow : row ∈ opcodeRows) (h : w &&& row.mask = row.pattern) :
    ∃ i, decode w = .ok i ∧ i.operation = row.operation := by
  simp only [opcodeRows, List.mem_cons, List.not_mem_nil, or_false] at hrow
  obtain rfl | rfl | rfl | rfl | rfl | rfl | hrow := hrow
  iterate 6 exact ⟨_, decode_of_maskedR rfl h, rfl⟩
  obtain rfl | rfl | rfl | rfl | rfl | rfl | rfl | rfl | rfl := hrow
  iterate 9 exact ⟨_, decode_of_maskedI (by decide) h, rfl⟩

/-- Settles O18: a word in a row decodes as the row says (`decode_of_row`), and a word that decodes is its
instruction's word (O13), which is in the row of its operation. -/
theorem opcodeRowsAgreeWithTheDecoder : Obligations.OpcodeRowsAgreeWithTheDecoder := by
  intro w row hrow
  rw [OpcodeRow.matchesWord, beq_iff_eq]
  refine ⟨decode_of_row hrow, fun ⟨i, hd, hop⟩ => ?_⟩
  rw [← encodeOfDecodeIsTheWord w i hd]
  exact encode_matchesRow i row hrow hop.symm

end Sys2Proof
end

section
/-! Words and segments in memory (R33, R34, R37, R45, R47, R171): the bytes of a word are at the addresses `byteAddr`,
which are different as long as the offsets are below 2^32. -/

namespace Sys2Proof.Machine

/-! The addresses of R32. -/

theorem byteAddr_byteAddr (a : Word) (j k : Nat) : byteAddr (byteAddr a j) k = byteAddr a (j + k) := by
  rw [byteAddr, byteAddr, byteAddr, BitVec.ofNat_add, BitVec.add_assoc]

/-- Different offsets below 2^32 give different addresses. -/
theorem byteAddr_ne_of_lt (a : Word) {j k : Nat} (hj : j < 2 ^ 32) (hk : k < 2 ^ 32) (h : j ≠ k) :
    byteAddr a j ≠ byteAddr a k := by
  intro e
  have he : BitVec.ofNat 32 j = BitVec.ofNat 32 k := (BitVec.add_right_inj a).mp e
  rw [← BitVec.toNat_inj, BitVec.toNat_ofNat, BitVec.toNat_ofNat, Nat.mod_eq_of_lt hj, Nat.mod_eq_of_lt hk] at he
  exact h he

/-- Every address is at some offset below 2^32 from any other. -/
theorem exists_byteAddr_eq (a b : Word) : ∃ k < 2 ^ 32, byteAddr a k = b := by
  refine ⟨(b - a).toNat, (b - a).isLt, ?_⟩
  rw [byteAddr, BitVec.ofNat_toNat, BitVec.setWidth_eq, BitVec.add_comm, BitVec.sub_add_cancel]

/-! Words. -/

/-- Settles O42. -/
theorem wordReadIsBigEndian : Obligations.WordReadIsBigEndian := by
  intro m a
  rw [Memory.readWord, joinBytes_toNat, byteAddr_zero, byteAddr, byteAddr, byteAddr]

/-- A word read looks at its four bytes only. -/
theorem readWord_congr {m n : Memory} {a : Word}
    (h : ∀ k < 4, m.readByte (byteAddr a k) = n.readByte (byteAddr a k)) : m.readWord a = n.readWord a := by
  rw [Memory.readWord, Memory.readWord, h 0 (by decide), h 1 (by decide), h 2 (by decide), h 3 (by decide)]

/-- Byte `k` of a written word reads as byte `k` of its value (R34). -/
theorem readByte_writeWord_byteAddr (m : Memory) (a v : Word) {k : Nat} (hk : k < 4) :
    (m.writeWord a v).readByte (byteAddr a k) = byteOfWord v k := by
  have hne : ∀ j < 4, k ≠ j → byteAddr a k ≠ byteAddr a j := fun j hj h => byteAddr_ne a hk hj h
  rw [readByte_writeWord]
  interval_cases k <;> simp [hne, -byteAddr_zero]

/-- A byte outside the four addresses of a written word reads as before (R47(b)). -/
theorem readByte_writeWord_of_ne (m : Memory) {a b : Word} (v : Word) (h : ∀ k < 4, b ≠ byteAddr a k) :
    (m.writeWord a v).readByte b = m.readByte b := by
  rw [readByte_writeWord, if_neg (h 3 (by decide)), if_neg (h 2 (by decide)), if_neg (h 1 (by decide)),
    if_neg (h 0 (by decide))]

theorem readWord_writeWord (m : Memory) (a v : Word) : (m.writeWord a v).readWord a = v := by
  have hbyte : ∀ k < 4, (m.writeWord a v).readByte (byteAddr a k) = byteOfWord v k :=
    fun k hk => readByte_writeWord_byteAddr m a v hk
  rw [Memory.readWord, hbyte 0 (by decide), hbyte 1 (by decide), hbyte 2 (by decide), hbyte 3 (by decide),
    joinBytes_byteOfWord]

/-- Settles O43. -/
theorem wordReadAfterWriteGivesTheWord : Obligations.WordReadAfterWriteGivesTheWord := readWord_writeWord

/-- Settles O44. -/
theorem wordWriteLeavesOtherBytes : Obligations.WordWriteLeavesOtherBytes := by
  intro m a v b h0 h1 h2 h3
  refine readByte_writeWord_of_ne m v fun k hk => ?_
  interval_cases k
  · rwa [byteAddr_zero]
  · exact h1
  · exact h2
  · exact h3

/-- Settles O45: the second word covers all bytes of the first but the top one. -/
theorem overlappingWritesCombine : Obligations.OverlappingWritesCombine := by
  intro m a v u
  have htop : ((m.writeWord a v).writeWord (byteAddr a 1) u).readByte (byteAddr a 0) = byteOfWord v 0 := by
    rw [readByte_writeWord_of_ne, readByte_writeWord_byteAddr m a v (by decide)]
    intro k hk
    rw [byteAddr_byteAddr]
    exact byteAddr_ne_of_lt a (by decide) (by omega) (by omega)
  have hlow : ∀ k < 3,
      ((m.writeWord a v).writeWord (byteAddr a 1) u).readByte (byteAddr a (1 + k)) = byteOfWord u k := by
    intro k hk
    rw [← byteAddr_byteAddr, readByte_writeWord_byteAddr _ _ _ (by omega)]
  rw [Memory.readWord, joinBytes_toNat, ← byteAddr, htop, hlow 0 (by decide), hlow 1 (by decide), hlow 2 (by decide)]
  simp only [byteOfWord_toNat]
  omega

/-- Settles O41: the epilogue does not touch memory, so the next fetch reads the stored word. -/
theorem fetchSeesTheStore : Obligations.FetchSeesTheStore := by
  intro rs rt imm s t h hpc
  have ht : t.mem = s.mem.writeWord (effectiveAddress s rs imm) (readReg s rt) := by
    rw [eq_of_next h (exec_sw rs rt imm s), storeBack_mem]
  rw [fetchWord, hpc, ht, readWord_writeWord]

/-! Segments (R171). -/

/-- The bytes outside a segment read as before. -/
theorem readByte_loadWords_of_ne (m : Memory) {a b : Word} (words : List Word)
    (h : ∀ k < 4 * words.length, b ≠ byteAddr a k) : (loadWords m a words).readByte b = m.readByte b := by
  induction words generalizing m a with
  | nil => rfl
  | cons w rest ih =>
    rw [List.length_cons] at h
    rw [loadWords, ih, readByte_writeWord_of_ne m w fun k hk => h k (by omega)]
    intro k hk
    rw [byteAddr_byteAddr]
    exact h (4 + k) (by omega)

/-- The words of a segment that does not overlap itself read as they were loaded. -/
theorem readWord_loadWords (m : Memory) (a : Word) {words : List Word} (hlen : words.length ≤ 2 ^ 30) {k : Nat}
    (hk : k < words.length) : (loadWords m a words).readWord (byteAddr a (4 * k)) = words[k] := by
  induction words generalizing m a k with
  | nil => cases hk
  | cons w rest ih =>
    rw [List.length_cons] at hlen hk
    rw [loadWords]
    cases k with
    | zero =>
      rw [Nat.mul_zero, byteAddr_zero, List.getElem_cons_zero]
      refine Eq.trans ?_ (readWord_writeWord m a w)
      refine readWord_congr fun j hj => readByte_loadWords_of_ne _ rest fun k hk => ?_
      rw [byteAddr_byteAddr]
      exact byteAddr_ne_of_lt a (by omega) (by omega) (by omega)
    | succ k =>
      rw [Nat.mul_succ, Nat.add_comm, ← byteAddr_byteAddr, List.getElem_cons_succ]
      exact ih _ _ (by omega) (by omega)

/-- Settles O48. -/
theorem loadedWordsAreAtTheirAddresses : Obligations.LoadedWordsAreAtTheirAddresses :=
  fun m base words hlen => ⟨fun _ hk => readWord_loadWords m base hlen hk,
    fun _ hb => readByte_loadWords_of_ne m words hb⟩

end Sys2Proof.Machine
end

section
/-! The canonical form (log 24): the cells of a canonical memory are exactly its bytes that are not zero. -/

namespace Sys2Proof.Machine

theorem readByte_of_mem {m : Memory} (hm : m.Pairwise fun c d => c.1 < d.1) {a : Word} {b : Byte}
    (h : (a.toNat, b) ∈ m) : m.readByte a = b := by
  induction m with
  | nil => cases h
  | cons c rest ih =>
    rw [List.pairwise_cons] at hm
    obtain ⟨hfirst, hrest⟩ := hm
    rcases List.mem_cons.mp h with rfl | h
    · rw [Memory.readByte, if_pos rfl]
    · rw [Memory.readByte, if_neg (hfirst _ h).ne, ih hrest h]

theorem mem_of_readByte_ne {m : Memory} {a : Word} (h : m.readByte a ≠ unlistedByte) :
    (a.toNat, m.readByte a) ∈ m := by
  induction m with
  | nil => exact absurd rfl h
  | cons c rest ih =>
    rw [Memory.readByte] at h ⊢
    split_ifs at h ⊢ with hc
    · rw [← hc]
      exact List.mem_cons_self
    · exact List.mem_cons_of_mem c (ih h)

theorem mem_of_readByte_eq {m n : Memory} (hm : m.wf) (h : ∀ a, m.readByte a = n.readByte a) {c : Host.Cell}
    (hc : c ∈ m) : c ∈ n := by
  obtain ⟨hrise, hcells⟩ := hm
  obtain ⟨k, b⟩ := c
  obtain ⟨hk, hb⟩ := hcells _ hc
  have ha : (BitVec.ofNat 32 k).toNat = k := Nat.mod_eq_of_lt hk
  rw [← ha] at hc ⊢
  have hread : n.readByte (BitVec.ofNat 32 k) = b := by rw [← h, readByte_of_mem hrise hc]
  rw [← hread] at hb ⊢
  exact mem_of_readByte_ne hb

/-- Settles O46: the two memories list the same cells, both in strictly rising order. -/
theorem canonicalMemoriesThatReadAlikeAreEqual : Obligations.CanonicalMemoriesThatReadAlikeAreEqual := by
  intro m n hm hn h
  have hnodup : ∀ {l : Memory}, l.wf → l.Nodup := fun hl => hl.1.imp fun hlt e => (e ▸ hlt).ne rfl
  have hperm : m.Perm n := (List.perm_ext_iff_of_nodup (hnodup hm) (hnodup hn)).mpr fun c =>
    ⟨mem_of_readByte_eq hm h, mem_of_readByte_eq hn fun a => (h a).symm⟩
  exact hperm.eq_of_pairwise (fun c d _ _ hcd hdc => absurd hcd hdc.not_gt) hm.1 hn.1

end Sys2Proof.Machine
end

section
/-! Strings in memory (R35): the read gives the one string at its address, or looks at every byte in vain. -/

namespace Sys2Proof.Machine

/-- The bytes are those from `a` on, none of them zero, and the next byte is zero. -/
def IsStringAt (m : Memory) (a : Word) (bytes : List Byte) : Prop :=
  (∀ k (h : k < bytes.length), bytes[k] = m.readByte (byteAddr a k) ∧ bytes[k] ≠ 0#8) ∧
    m.readByte (byteAddr a bytes.length) = 0#8

theorem isStringAt_nil (m : Memory) (a : Word) : IsStringAt m a [] ↔ m.readByte a = 0#8 := by
  simp [IsStringAt]

theorem isStringAt_cons (m : Memory) (a : Word) (b : Byte) (bytes : List Byte) :
    IsStringAt m a (b :: bytes) ↔ b = m.readByte a ∧ b ≠ 0#8 ∧ IsStringAt m (byteAddr a 1) bytes := by
  simp only [IsStringAt, byteAddr_byteAddr, Nat.add_comm 1, List.length_cons]
  refine ⟨fun ⟨hbytes, hend⟩ => ?_, fun ⟨hb, hb0, hbytes, hend⟩ => ⟨fun k hk => ?_, hend⟩⟩
  · obtain ⟨hb, hb0⟩ := hbytes 0 (Nat.zero_lt_succ _)
    exact ⟨byteAddr_zero a ▸ hb, hb0, fun k hk => hbytes (k + 1) (Nat.succ_lt_succ hk), hend⟩
  · cases k with
    | zero => exact ⟨(byteAddr_zero a).symm ▸ hb, hb0⟩
    | succ k => exact hbytes k (Nat.lt_of_succ_lt_succ hk)

theorem readCStringWithin_eq_some_iff (m : Memory) (n : Nat) (a : Word) (bytes : List Byte) :
    m.readCStringWithin n a = some bytes ↔ bytes.length < n ∧ IsStringAt m a bytes := by
  induction n generalizing a bytes with
  | zero => simp [Memory.readCStringWithin]
  | succ n ih =>
    rw [readCStringWithin_succ]
    cases bytes with
    | nil =>
      rw [isStringAt_nil]
      split_ifs with h0 <;> simp [h0]
    | cons b bytes =>
      rw [isStringAt_cons, List.length_cons, Nat.succ_lt_succ_iff]
      split_ifs with h0
      · simp +contextual [h0]
      · simp only [Option.map_eq_some_iff, ih, List.cons.injEq]
        constructor
        · rintro ⟨bs, h, rfl, rfl⟩
          exact ⟨h.1, rfl, h0, h.2⟩
        · rintro ⟨hlen, rfl, -, h⟩
          exact ⟨_, ⟨hlen, h⟩, rfl, rfl⟩

theorem readCStringWithin_eq_none_iff (m : Memory) (n : Nat) (a : Word) :
    m.readCStringWithin n a = none ↔ ∀ k < n, m.readByte (byteAddr a k) ≠ 0#8 := by
  induction n generalizing a with
  | zero => simp [Memory.readCStringWithin]
  | succ n ih =>
    rw [readCStringWithin_succ, Nat.forall_lt_succ_left, byteAddr_zero]
    split_ifs with h0
    · simp [h0]
    · simp [h0, ih, byteAddr_byteAddr, Nat.add_comm 1]

/-- The read looks at every byte of memory before it gives up. -/
theorem readCString_eq_none_iff (m : Memory) (a : Word) : m.readCString a = none ↔ ∀ b, m.readByte b ≠ 0#8 := by
  rw [Memory.readCString, readCStringWithin_eq_none_iff]
  refine ⟨fun h b => ?_, fun h k _ => h _⟩
  obtain ⟨k, hk, rfl⟩ := exists_byteAddr_eq a b
  exact h k hk

/-- Settles O47. -/
theorem stringReadStopsAtTheFirstZeroByte : Obligations.StringReadStopsAtTheFirstZeroByte :=
  fun m a => ⟨readCStringWithin_eq_some_iff m (2 ^ 32) a, readCString_eq_none_iff m a⟩

/-- Settles O53: with a zero byte somewhere the read does not give up. -/
theorem trapFourPrintsTheString : Obligations.TrapFourPrintsTheString := by
  intro rs rt rd shamt s hc ⟨a, ha⟩
  cases hr : s.mem.readCString (readReg s Config.trapArgReg) with
  | none => exact absurd ha ((readCString_eq_none_iff _ _).mp hr a)
  | some bytes =>
    refine ⟨_, bytes, (exec_trap rs rt rd shamt s).trans ((execTrap_printString hc).trans (trapPrintString_some hr)),
      rfl, ?_⟩
    exact ⟨rfl, rfl, readReg_complete _, fun _ => rfl, rfl, rfl, rfl⟩

end Sys2Proof.Machine
end

section
/-! LW and SW (R110 to R112). -/

namespace Sys2Proof.Machine

/-- Settles O38: the sign extension is the offset's signed value modulo 2^32. -/
theorem effectiveAddressIsBasePlusOffset : Obligations.EffectiveAddressIsBasePlusOffset := by
  intro rs imm s
  rw [effectiveAddress, sext16_eq_ofInt, BitVec.toNat_add, BitVec.toNat_ofInt]
  omega

/-- Settles O39. -/
theorem lwLoadsTheWord : Obligations.LwLoadsTheWord :=
  fun rs rt imm s => writesRegister_of_exec_eq_writeBack (exec_lw rs rt imm s)

/-- Settles O40, from what `storeBack` does (`storeBack_spec`) and the bytes of a written word. -/
theorem swStoresTheWord : Obligations.SwStoresTheWord := by
  intro rs rt imm s
  obtain ⟨hmem, hframe⟩ := storeBack_spec (effectiveAddress s rs imm) (readReg s rt) s
  refine ⟨_, exec_sw rs rt imm s, fun k hk => ?_, fun a ha => ?_, hframe⟩
  · rw [hmem, ← byteAddr, readByte_writeWord_byteAddr _ _ _ hk, byteOfWord_toNat]
  · rw [hmem, readByte_writeWord_of_ne _ _ ha]

end Sys2Proof.Machine
end

section
/-! The step (R81 to R88) and the end of a run (R80, R158 to R160, R179): which events end it, which is fatal, and the
one fault. -/

namespace Sys2Proof.Machine

open Sys2Proof.Safety

theorem fetchWord_eq_joinBytes (s : State) : fetchWord s = joinBytes (s.mem.readByte s.pc)
    (s.mem.readByte (s.pc + 1#32)) (s.mem.readByte (s.pc + 2#32)) (s.mem.readByte (s.pc + 3#32)) := by
  rw [fetchWord, Memory.readWord, byteAddr_zero, byteAddr, byteAddr, byteAddr]

/-- A word that decodes is not the sentinel (R62). -/
theorem ne_zero_of_decode_ok {w : Word} {i : Instr} (h : decode w = .ok i) : w ≠ 0#32 := by
  rintro rfl
  rw [decode_zero] at h
  cases h

section
variable {s : State} (hs : s.runState = .running)
include hs

theorem step_of_decode_ok {i : Instr} (h : decode (fetchWord s) = .ok i) : step s = exec i s := by
  rw [step_of_running s hs, runCycle, if_neg (ne_zero_of_decode_ok h), runWord, h]

theorem step_of_decode_error {e : DecodeError} (hw : fetchWord s ≠ 0#32) (h : decode (fetchWord s) = .error e) :
    step s = .next (raiseFatal (decodeErrorKind e) (decodeErrorCode e) s) := by
  rw [step_of_running s hs, runCycle, if_neg hw, runWord, h]

end

/-- Settles O19. -/
theorem stepRunsTheDecodedInstruction : Obligations.StepRunsTheDecodedInstruction := by
  intro s i hs h
  rw [decodeBytes, ← fetchWord_eq_joinBytes] at h
  exact step_of_decode_ok hs h

/-- Settles O21: both decode errors raise a fatal error, which does nothing but end the run. -/
theorem decodeFailureIsFatal : Obligations.DecodeFailureIsFatal :=
  fun s hs hw => ⟨fun _ h => ⟨_, step_of_decode_error hs hw h, raiseFatal_effect _ _ s⟩,
    fun _ h => ⟨_, step_of_decode_error hs hw h, raiseFatal_effect _ _ s⟩⟩

/-- Settles O22. -/
theorem terminalStatesAbsorb : Obligations.TerminalStatesAbsorb := step_of_ended

/-! How a step of a running machine ends the run. -/

/-- TRAP leaves the run state as it was, exits, or is fatal with a code that is not known (R131). -/
theorem execTrap_end {s t : State} (h : execTrap s = .next t) :
    (trapCode s ∈ [1, 4, 5] ∧ t.runState = s.runState) ∨ (trapCode s = 10 ∧ t = halt .exitTrap s) ∨
      (trapCode s ∉ [1, 4, 5, 10] ∧ t = raiseFatal .unknownTrap (trapCode s) s) := by
  obtain ⟨hc, rfl⟩ | ⟨hc, bytes, rfl⟩ | ⟨hc, v, rfl⟩ | ⟨hc, rfl⟩ | ⟨hc, rfl⟩ | ⟨hc, rfl⟩ := execTrap_next h
  · exact .inl ⟨by rw [hc]; decide, rfl⟩
  · exact .inl ⟨by rw [hc]; decide, rfl⟩
  · exact .inl ⟨by rw [hc]; decide, rfl⟩
  · exact .inl ⟨by rw [hc]; decide, rfl⟩
  · exact .inr (.inl ⟨hc, rfl⟩)
  · exact .inr (.inr ⟨hc, rfl⟩)

/-- The four ways of a step of a running machine: it goes on, falls off the end, fails to decode, or is a TRAP that
exits or is fatal. -/
theorem step_running_next {s t : State} (hs : s.runState = .running) (h : step s = .next t) :
    t.runState = .running ∨
    (fetchWord s = 0#32 ∧ t = halt .fellOffEnd s) ∨
    (fetchWord s ≠ 0#32 ∧ ∃ e, decode (fetchWord s) = .error e ∧
      t = raiseFatal (decodeErrorKind e) (decodeErrorCode e) s) ∨
    (∃ i, decode (fetchWord s) = .ok i ∧ i.operation = .trap ∧ ((trapCode s = 10 ∧ t = halt .exitTrap s) ∨
      (trapCode s ∉ [1, 4, 5, 10] ∧ t = raiseFatal .unknownTrap (trapCode s) s))) := by
  obtain ⟨hne, -⟩ | ⟨-, hw, ht⟩ | ⟨-, hw, e, hd, ht⟩ | ⟨-, i, hd, hx⟩ := step_next h
  · exact absurd hs hne
  · exact .inr (.inl ⟨hw, ht⟩)
  · exact .inr (.inr (.inl ⟨hw, e, hd, ht⟩))
  by_cases hi : i.operation = .trap
  · rw [exec_of_operation_trap hi] at hx
    obtain ⟨-, hrun⟩ | hend := execTrap_end hx
    · exact .inl (hrun.trans hs)
    · exact .inr (.inr (.inr ⟨i, hd, hi, hend⟩))
  · exact .inl ((onlyTrapTouchesTheConsole i s t hi hx).2.trans hs)

/-- Settles O23. -/
theorem onlyTheseEventsEndARun : Obligations.OnlyTheseEventsEndARun := by
  intro s t hs h hend
  obtain hrun | ⟨hw, rfl⟩ | ⟨hw, e, hd, rfl⟩ | ⟨i, hd, hi, ⟨hc, rfl⟩ | ⟨hc, rfl⟩⟩ := step_running_next hs h
  · exact absurd hrun hend
  · exact .inl ⟨hw, rfl⟩
  · exact .inr (.inl ⟨hw, e, hd, rfl⟩)
  · exact .inr (.inr ⟨i, hd, hi, .inl ⟨hc, rfl⟩⟩)
  · exact .inr (.inr ⟨i, hd, hi, .inr ⟨hc, rfl⟩⟩)

/-- A machine that `raiseFatal` ended names its own address and reports the same triple (R159). -/
theorem raiseFatal_precise {s : State} {kind kind' : FatalKind} {code code' : Int} {addr : Word}
    (h : (raiseFatal kind' code' s).runState = .fatal kind code addr) :
    addr = s.pc ∧ (raiseFatal kind' code' s).errors = s.errors ++ [.fatal kind code addr] ∧
      (raiseFatal kind' code' s).out = s.out ∧ MachineSame s (raiseFatal kind' code' s) := by
  cases h
  exact ⟨rfl, (raiseFatal_spec _ _ s).2⟩

/-- Settles O24: the steps that end fatally are those that raise a fatal error. -/
theorem fatalErrorsArePrecise : Obligations.FatalErrorsArePrecise := by
  intro s t kind code addr hs h hf
  obtain hrun | ⟨-, rfl⟩ | ⟨-, e, -, rfl⟩ | ⟨i, -, -, ⟨-, rfl⟩ | ⟨-, rfl⟩⟩ := step_running_next hs h
  · rw [hrun] at hf; cases hf
  · cases hf
  · exact raiseFatal_precise hf
  · cases hf
  · exact raiseFatal_precise hf

theorem safe_of_running {s : State} (h : s.runState = .running) : Safe s := by
  rintro ⟨kind, code, addr, hf⟩
  rw [h] at hf
  cases hf

theorem safe_halt (reason : HaltReason) (s : State) : Safe (halt reason s) := by
  rintro ⟨kind, code, addr, hf⟩
  cases hf

/-- Settles O25: neither event that raises a fatal error is possible under the condition on the fetched word. -/
theorem supportedCodeStaysSafe : Obligations.SupportedCodeStaysSafe := by
  intro s t hsafe h hword
  by_cases hs : s.runState = .running
  · obtain hrun | ⟨-, rfl⟩ | ⟨hw, e, hd, rfl⟩ | ⟨i, hd, hi, ⟨-, rfl⟩ | ⟨hc, rfl⟩⟩ := step_running_next hs h
    · exact safe_of_running hrun
    · exact safe_halt _ s
    · obtain h0 | ⟨i, hi, -⟩ := hword
      · exact absurd h0 hw
      · rw [hd] at hi; cases hi
    · exact safe_halt _ s
    · obtain h0 | ⟨j, hj, hcode⟩ := hword
      · exact absurd h0 (ne_zero_of_decode_ok hd)
      · rw [hd] at hj; cases hj
        exact absurd (hcode hi) hc
  · rw [step_of_ended s hs] at h
    cases h
    exact hsafe

/-! The one fault (R176). -/

/-- An instruction that is no TRAP completes. -/
theorem exec_completes {i : Instr} (hi : i.operation ≠ .trap) (s : State) : ∃ t, exec i s = .next t := by
  obtain ⟨ht, -⟩ | ⟨-, -, rd, v, -, hx⟩ | ⟨-, rs, rt, imm, -, hx⟩ | ⟨-, -, -, ⟨taken, imm, hx⟩ | ⟨target, hx⟩⟩ :=
    exec_cases i s
  · exact absurd ht hi
  all_goals exact ⟨_, hx⟩

/-- TRAP completes but for the string read that never ends. -/
theorem execTrap_completes_or_faults (s : State) : (∃ t, execTrap s = .next t) ∨
    (trapCode s = 4 ∧ (∀ a, s.mem.readByte a ≠ 0#8) ∧ execTrap s = .fault .unterminatedString) := by
  obtain ⟨-, hx⟩ | ⟨-, bytes, -, hx⟩ | ⟨hc, hr, hx⟩ | ⟨-, v, -, hx⟩ | ⟨-, -, hx⟩ | ⟨-, hx⟩ | ⟨-, hx⟩ :=
    execTrap_cases s
  case inr.inr.inl => exact .inr ⟨hc, (readCString_eq_none_iff _ _).mp hr, hx⟩
  all_goals exact .inl ⟨_, hx⟩

/-- Every step completes but for a TRAP whose string read never ends. -/
theorem step_completes_or_faults (s : State) : (∃ t, step s = .next t) ∨
    (s.runState = .running ∧ (∃ i, decode (fetchWord s) = .ok i ∧ i.operation = .trap) ∧ trapCode s = 4 ∧
      (∀ a, s.mem.readByte a ≠ 0#8) ∧ step s = .fault .unterminatedString) := by
  obtain ⟨-, hx⟩ | ⟨-, -, hx⟩ | ⟨-, -, e, -, hx⟩ | ⟨hs, -, i, hd, hx⟩ := step_cases s
  · exact .inl ⟨_, hx⟩
  · exact .inl ⟨_, hx⟩
  · exact .inl ⟨_, hx⟩
  rw [hx]
  by_cases hi : i.operation = .trap
  · rw [exec_of_operation_trap hi]
    obtain hnext | ⟨hc, hmem, hfault⟩ := execTrap_completes_or_faults s
    · exact .inl hnext
    · exact .inr ⟨hs, ⟨i, hd, hi⟩, hc, hmem, hfault⟩
  · exact .inl (exec_completes hi s)

/-- The string read that never ends is the fault. -/
theorem step_endless_string {s : State} {i : Instr} (hs : s.runState = .running) (hd : decode (fetchWord s) = .ok i)
    (hi : i.operation = .trap) (hc : trapCode s = 4) (hmem : ∀ a, s.mem.readByte a ≠ 0#8) :
    step s = .fault .unterminatedString := by
  rw [step_of_decode_ok hs hd, exec_of_operation_trap hi, execTrap_printString hc]
  exact trapPrintString_none ((readCString_eq_none_iff _ _).mpr hmem)

/-- Settles O26. -/
theorem theOnlyFaultIsTheEndlessString : Obligations.TheOnlyFaultIsTheEndlessString := by
  refine ⟨fun s r h => ?_, fun s f => ⟨fun h => ?_, fun ⟨hs, ⟨i, hd, hi⟩, hc, hmem, hf⟩ => ?_⟩⟩
  · obtain ⟨t, hx⟩ | ⟨-, -, -, -, hx⟩ := step_completes_or_faults s
    · exact absurd (h.symm.trans hx) nofun
    · exact absurd (h.symm.trans hx) nofun
  · obtain ⟨t, hx⟩ | ⟨hs, htrap, hc, hmem, hx⟩ := step_completes_or_faults s
    · exact absurd (h.symm.trans hx) nofun
    · exact ⟨hs, htrap, hc, hmem, Host.Outcome.fault.inj (h.symm.trans hx)⟩
  · rw [hf, step_endless_string hs hd hi hc hmem]

/-! Signals and messages (R144, R179). -/

/-- Settles O27. -/
theorem eachEndHasItsSignal : Obligations.EachEndHasItsSignal :=
  ⟨rfl, rfl, ⟨Config.exitStatusFellOffEnd, rfl⟩, fun _ _ _ => ⟨rfl, rfl⟩⟩

/-- Settles O28: the exit message is made to differ, by one byte of length where it would not. -/
theorem terminationMessagesDiffer : Obligations.TerminationMessagesDiffer := by
  show Config.msgExit ≠ Config.msgFellOffEnd
  rw [Config.msgExit]
  split_ifs with h
  · rw [← h]
    exact List.cons_ne_self _ _
  · exact h

end Sys2Proof.Machine
end

section
/-! The console's integers (R133, R143): the digits of a number spell it, and reading a canonical spelling gives the
value back. -/

namespace Sys2Proof.Machine

theorem digitByte_toNat {d : Nat} (h : d < 10) : (digitByte d).toNat = 0x30 + d := by
  rw [digitByte, BitVec.toNat_ofNat]; omega

/-! The digits of a number, by the recursion of `decimalDigits`. -/

theorem decimalDigits_of_lt {n : Nat} (h : n < 10) (fuel : Nat) : decimalDigits (fuel + 1) n = [digitByte n] := by
  rw [decimalDigits, if_pos h]

theorem decimalDigits_of_not_lt {n : Nat} (h : ¬ n < 10) (fuel : Nat) :
    decimalDigits (fuel + 1) n = decimalDigits fuel (n / 10) ++ [digitByte (n % 10)] := by
  rw [decimalDigits, if_neg h]

theorem decimalDigits_ne_nil (fuel n : Nat) : decimalDigits (fuel + 1) n ≠ [] := by
  by_cases h : n < 10
  · rw [decimalDigits_of_lt h]
    exact List.cons_ne_nil _ _
  · rw [decimalDigits_of_not_lt h]
    exact List.append_ne_nil_of_right_ne_nil _ (List.cons_ne_nil _ _)

theorem decimalDigits_range (fuel n : Nat) : ∀ d ∈ decimalDigits fuel n, 0x30 ≤ d.toNat ∧ d.toNat ≤ 0x39 := by
  induction fuel generalizing n with
  | zero => exact fun _ hd => nomatch hd
  | succ fuel ih =>
    by_cases h : n < 10
    · rw [decimalDigits_of_lt h, List.forall_mem_singleton, digitByte_toNat h]
      omega
    · rw [decimalDigits_of_not_lt h, List.forall_mem_append, List.forall_mem_singleton,
        digitByte_toNat (Nat.mod_lt n (by decide))]
      exact ⟨ih _, by omega⟩

theorem decimalValue_append_digit (bytes : List Byte) (b : Byte) :
    decimalValue (bytes ++ [b]) = 10 * decimalValue bytes + (b.toNat - 0x30) := by
  rw [decimalValue, decimalValue, List.foldl_append]
  rfl

/-- The digits of a number spell it, if there is fuel for all of them. -/
theorem decimalValue_decimalDigits {fuel n : Nat} (h : n < 10 ^ fuel) : decimalValue (decimalDigits fuel n) = n := by
  induction fuel generalizing n with
  | zero => exact (Nat.lt_one_iff.mp h).symm
  | succ fuel ih =>
    by_cases hn : n < 10
    · rw [decimalDigits_of_lt hn, ← List.nil_append [digitByte n], decimalValue_append_digit, digitByte_toNat hn]
      exact (Nat.zero_add _).trans (Nat.add_sub_cancel_left 0x30 n)
    · have hdiv : n / 10 < 10 ^ fuel := Nat.div_lt_of_lt_mul (by rwa [← Nat.pow_succ'])
      rw [decimalDigits_of_not_lt hn, decimalValue_append_digit, ih hdiv, digitByte_toNat (Nat.mod_lt n (by decide))]
      omega

/-- The first digit of a number that is not zero is not zero. -/
theorem decimalDigits_head {fuel n : Nat} (h : n < 10 ^ fuel) (h0 : 0 < n) :
    ∃ d, (decimalDigits fuel n).head? = some d ∧ d ≠ 0x30#8 := by
  induction fuel generalizing n with
  | zero => omega
  | succ fuel ih =>
    by_cases hn : n < 10
    · refine ⟨digitByte n, by rw [decimalDigits_of_lt hn, List.head?_cons], fun e => ?_⟩
      have := congrArg BitVec.toNat e
      rw [digitByte_toNat hn, show (0x30#8).toNat = 0x30 from rfl] at this
      omega
    · have hdiv : n / 10 < 10 ^ fuel := Nat.div_lt_of_lt_mul (by rwa [← Nat.pow_succ'])
      obtain ⟨d, hd, hne⟩ := ih hdiv (by omega)
      exact ⟨d, by rw [decimalDigits_of_not_lt hn, List.head?_append, hd, Option.some_or], hne⟩

/-- Only zero has a leading zero, which is all of its spelling. -/
theorem decimalDigits_no_leading_zero {fuel n : Nat} (h : n < 10 ^ (fuel + 1))
    (hhead : (decimalDigits (fuel + 1) n).head? = some 0x30#8) : (decimalDigits (fuel + 1) n).length = 1 := by
  obtain rfl | h0 := Nat.eq_zero_or_pos n
  · rw [decimalDigits_of_lt (by decide), List.length_singleton]
  · obtain ⟨d, hd, hne⟩ := decimalDigits_head h h0
    exact absurd (Option.some.inj (hd.symm.trans hhead)) hne

/-! `FormatDec` (R133). -/

theorem natAbs_toInt_lt (v : Word) : v.toInt.natAbs < 10 ^ 10 := by
  have hlo := BitVec.le_toInt v
  have hhi := BitVec.toInt_lt (x := v)
  omega

theorem formatDec_eq (v : Word) :
    formatDec v = (if v.toInt < 0 then [minusByte] else []) ++ decimalDigits 10 v.toInt.natAbs := by
  rw [formatDec]
  split_ifs <;> rfl

/-- Settles O58: the digits are those of the magnitude, for which ten are enough. -/
theorem formatDecIsTheShortestDecimalSpelling : Obligations.FormatDecIsTheShortestDecimalSpelling :=
  fun v => ⟨decimalDigits 10 v.toInt.natAbs, formatDec_eq v, decimalDigits_ne_nil 9 _, decimalDigits_range 10 _,
    decimalDigits_no_leading_zero (natAbs_toInt_lt v), decimalValue_decimalDigits (natAbs_toInt_lt v)⟩

/-! `ParseInt` (R143). -/

theorem signedValue_minus (bytes : List Byte) : signedValue (minusByte :: bytes) = -(decimalValue bytes : Int) := by
  rw [signedValue, if_pos rfl]

theorem signedValue_of_digits {bytes : List Byte} (h : ∀ d ∈ bytes, 0x30 ≤ d.toNat ∧ d.toNat ≤ 0x39) :
    signedValue bytes = decimalValue bytes := by
  cases bytes with
  | nil => rfl
  | cons b rest =>
    have hb : b ≠ minusByte := by
      rintro rfl
      exact absurd (h minusByte List.mem_cons_self).1 (by decide)
    rw [signedValue, if_neg hb]

theorem signedValue_formatDec (v : Word) : signedValue (formatDec v) = v.toInt := by
  have hvalue := decimalValue_decimalDigits (natAbs_toInt_lt v)
  rw [formatDec]
  split_ifs with hneg
  · rw [signedValue_minus, hvalue]
    omega
  · rw [signedValue_of_digits (decimalDigits_range 10 _), hvalue]
    omega

theorem canonicalValue_formatDec (v : Word) : canonicalValue (formatDec v) = some v := by
  simp [canonicalValue, signedValue_formatDec]

/-- A line with no decimal digit is no canonical spelling. -/
theorem canonicalValue_of_no_digit {line : Line} (h : ∀ b ∈ line, b.toNat < 0x30 ∨ 0x39 < b.toNat) :
    canonicalValue line = none := by
  have hne : formatDec (BitVec.ofInt 32 (signedValue line)) ≠ line := by
    intro e
    obtain ⟨d, hd⟩ := List.exists_mem_of_ne_nil _
      (decimalDigits_ne_nil 9 (BitVec.ofInt 32 (signedValue line)).toInt.natAbs)
    have hrange := decimalDigits_range 10 _ d hd
    have hline : d ∈ line := by
      rw [← e, formatDec_eq]
      exact List.mem_append_right _ hd
    have := h d hline
    omega
  rw [canonicalValue, if_neg hne]

theorem any_isDigit_of_no_digit {line : Line} (h : ∀ b ∈ line, b.toNat < 0x30 ∨ 0x39 < b.toNat) :
    line.any isDigit = false := by
  rw [List.any_eq_false]
  intro b hb
  have := h b hb
  simp only [isDigit, Bool.and_eq_true, decide_eq_true_eq]
  omega

/-- Settles O59. -/
theorem parseIntMeetsItsContract : Obligations.ParseIntMeetsItsContract := by
  refine ⟨fun v => ?_, rfl, fun line h => ?_⟩
  · simp [parseInt, parseLine, canonicalValue_formatDec]
  · simp [parseInt, parseLine, canonicalValue_of_no_digit h, any_isDigit_of_no_digit h]

end Sys2Proof.Machine
end

section
/-! The lines of a byte stream (R140): the scan collects a line up to its line feed. -/

namespace Sys2Proof.Machine

theorem linesFrom_append {line : Line} (h : lineFeed ∉ line) (current : Line) (rest : List Byte) :
    linesFrom current (line ++ rest) = linesFrom (current ++ line) rest := by
  induction line generalizing current with
  | nil => rw [List.nil_append, List.append_nil]
  | cons b line ih =>
    rw [List.mem_cons, not_or] at h
    rw [List.cons_append, linesFrom, if_neg (Ne.symm h.1), ih h.2, List.append_assoc, List.singleton_append]

theorem linesOfBytes_line {line : Line} (h : lineFeed ∉ line) (rest : List Byte) :
    linesOfBytes (line ++ lineFeed :: rest) = dropCarriageReturn line :: linesOfBytes rest := by
  rw [linesOfBytes, linesFrom_append h, List.nil_append, linesFrom, if_pos rfl, linesOfBytes]

theorem linesOfBytes_last {line : Line} (hne : line ≠ []) (h : lineFeed ∉ line) : linesOfBytes line = [line] := by
  have hx := linesFrom_append h [] []
  rwa [List.append_nil, List.nil_append, linesFrom, if_neg hne] at hx

theorem dropCarriageReturn_append (line : Line) : dropCarriageReturn (line ++ [carriageReturn]) = line := by
  rw [dropCarriageReturn, if_pos List.getLast?_concat, List.dropLast_concat]

/-- Settles O60. -/
theorem inputBytesSplitAtLineFeeds : Obligations.InputBytesSplitAtLineFeeds := by
  refine ⟨rfl, fun _ hne h => linesOfBytes_last hne h, fun line rest h hcr => ?_, fun line rest h => ?_⟩
  · have hdrop : dropCarriageReturn line = line := if_neg hcr
    exact (linesOfBytes_line h rest).trans (by rw [hdrop])
  · have hline : lineFeed ∉ line ++ [carriageReturn] := by
      rw [List.mem_append, not_or]
      exact ⟨h, by decide⟩
    have hx := linesOfBytes_line hline rest
    rwa [dropCarriageReturn_append, List.append_assoc, List.singleton_append] at hx

end Sys2Proof.Machine
end
